-- ==== Sys2Proof/Word.lean ====
section
/-! DEFINITION. The word types of the CHIP-8 core and the splitting and joining of a 16-bit word into bytes and
nibbles. Every value is an unsigned bit vector of the width the spec gives (spec/00_scope.md R7). -/

namespace Sys2Proof

/-- A byte: a memory cell, a general register, a timer (R21, R28, R60). -/
abbrev Byte := BitVec 8

/-- A 16-bit word: an instruction, `I`, `pc`, a return address, the seed (R23, R27, R30, R37, R90). -/
abbrev Word := BitVec 16

/-- The 12-bit address field NNN of an instruction word (R92). -/
abbrev Addr12 := BitVec 12

/-- A 4-bit slice of an instruction word (R91). -/
abbrev Nibble := BitVec 4

/-- The number of a general register, 0..15: in range by construction (R21). -/
abbrev Reg := Fin 16

/-- The index of a key of the keypad, 0..15 (R33). -/
abbrev Key := Fin 16

/-- One row of the framebuffer: bit x is the cell of column x (R34). -/
abbrev PixelRow := BitVec 64

/-- The flag register VF is register 15 (R22). -/
abbrev VF : Reg := 15

end Sys2Proof
end

