-- ==== Sys2Proof/Syntax.lean ====
section
/-! DEFINITION. The 34 instructions of the core as one closed type, one constructor per row of spec/opcode_table.json
(spec/30_encoding.md R96, R105). The fields are the operand fields of R92: a register number, an 8-bit immediate NN, a
12-bit address NNN, a 4-bit row count N. The shifts keep their unused field Y (R100). -/

namespace Sys2Proof

/-- An instruction of the core, in the table's order. -/
inductive Instr where
  /-- 00E0 CLS: clear the screen (R200) -/
  | cls
  /-- 00EE RET: return from a subroutine (R140) -/
  | ret
  /-- 1NNN JP NNN (R141) -/
  | jp (nnn : Addr12)
  /-- 2NNN CALL NNN (R142) -/
  | call (nnn : Addr12)
  /-- 3XNN SE VX, NN (R145) -/
  | seImm (x : Reg) (nn : Byte)
  /-- 4XNN SNE VX, NN (R146) -/
  | sneImm (x : Reg) (nn : Byte)
  /-- 5XY0 SE VX, VY (R147) -/
  | seReg (x y : Reg)
  /-- 6XNN LD VX, NN (R160) -/
  | ldImm (x : Reg) (nn : Byte)
  /-- 7XNN ADD VX, NN (R161) -/
  | addImm (x : Reg) (nn : Byte)
  /-- 8XY0 LD VX, VY (R162) -/
  | ldReg (x y : Reg)
  /-- 8XY1 OR VX, VY (R163) -/
  | orReg (x y : Reg)
  /-- 8XY2 AND VX, VY (R164) -/
  | andReg (x y : Reg)
  /-- 8XY3 XOR VX, VY (R165) -/
  | xorReg (x y : Reg)
  /-- 8XY4 ADD VX, VY (R166) -/
  | addReg (x y : Reg)
  /-- 8XY5 SUB VX, VY (R167) -/
  | subReg (x y : Reg)
  /-- 8XY6 SHR VX (R168) -/
  | shr (x y : Reg)
  /-- 8XY7 SUBN VX, VY (R170) -/
  | subnReg (x y : Reg)
  /-- 8XYE SHL VX (R171) -/
  | shl (x y : Reg)
  /-- 9XY0 SNE VX, VY (R148) -/
  | sneReg (x y : Reg)
  /-- ANNN LD I, NNN (R240) -/
  | ldI (nnn : Addr12)
  /-- BNNN JP V0, NNN (R144) -/
  | jpV0 (nnn : Addr12)
  /-- CXNN RND VX, NN (R193) -/
  | rnd (x : Reg) (nn : Byte)
  /-- DXYN DRW VX, VY, N (R201) -/
  | drw (x y : Reg) (n : Nibble)
  /-- EX9E SKP VX (R220) -/
  | skp (x : Reg)
  /-- EXA1 SKNP VX (R221) -/
  | sknp (x : Reg)
  /-- FX07 LD VX, DT (R230) -/
  | ldVxDt (x : Reg)
  /-- FX0A LD VX, K (R223) -/
  | ldVxK (x : Reg)
  /-- FX15 LD DT, VX (R231) -/
  | ldDtVx (x : Reg)
  /-- FX18 LD ST, VX (R232) -/
  | ldStVx (x : Reg)
  /-- FX1E ADD I, VX (R241) -/
  | addIVx (x : Reg)
  /-- FX29 LD F, VX (R242) -/
  | ldF (x : Reg)
  /-- FX33 LD B, VX (R243) -/
  | ldB (x : Reg)
  /-- FX55 LD [I], VX (R245) -/
  | ldMemVx (x : Reg)
  /-- FX65 LD VX, [I] (R246) -/
  | ldVxMem (x : Reg)
  deriving DecidableEq, Repr

end Sys2Proof
end

