-- ==== Sys2Proof/WellFormed.lean ====
section
/-! DEFINITION. The opcode map of spec/30_encoding.md R96 as a list of mask and match rows, written from the table and
independently of the decoder, and the checks made before a value is given to the machine: a word is an instruction word,
an instruction stands in the table, a program image fits, a key index is in the domain of `set_key`.
The fields of `Instr` need no range check: each field's type holds exactly the values R92 gives it, and every value of
every field is legal (R21, R92, R100). -/

namespace Sys2Proof

/-- A row of R96: `op` selects it iff `op & mask = pattern`. -/
structure OpcodeRow where
  mnemonic : String
  mask : Word
  pattern : Word
  deriving DecidableEq, Repr

/-- "a word `op` selects the row iff `op & mask = match`" (R96). -/
def OpcodeRow.selects (r : OpcodeRow) (op : Word) : Bool := op &&& r.mask == r.pattern

/-- Rows 1 to 10 of R96. -/
def opcodeRowsControl : List OpcodeRow :=
  [⟨"CLS", 0xFFFF#16, 0x00E0#16⟩,
   ⟨"RET", 0xFFFF#16, 0x00EE#16⟩,
   ⟨"JP_NNN", 0xF000#16, 0x1000#16⟩,
   ⟨"CALL_NNN", 0xF000#16, 0x2000#16⟩,
   ⟨"SE_VX__NN", 0xF000#16, 0x3000#16⟩,
   ⟨"SNE_VX__NN", 0xF000#16, 0x4000#16⟩,
   ⟨"SE_VX__VY", 0xF00F#16, 0x5000#16⟩,
   ⟨"LD_VX__NN", 0xF000#16, 0x6000#16⟩,
   ⟨"ADD_VX__NN", 0xF000#16, 0x7000#16⟩,
   ⟨"LD_VX__VY", 0xF00F#16, 0x8000#16⟩]

/-- Rows 11 to 19 of R96. -/
def opcodeRowsAlu : List OpcodeRow :=
  [⟨"OR_VX__VY", 0xF00F#16, 0x8001#16⟩,
   ⟨"AND_VX__VY", 0xF00F#16, 0x8002#16⟩,
   ⟨"XOR_VX__VY", 0xF00F#16, 0x8003#16⟩,
   ⟨"ADD_VX__VY", 0xF00F#16, 0x8004#16⟩,
   ⟨"SUB_VX__VY", 0xF00F#16, 0x8005#16⟩,
   ⟨"SHR_VX", 0xF00F#16, 0x8006#16⟩,
   ⟨"SUBN_VX__VY", 0xF00F#16, 0x8007#16⟩,
   ⟨"SHL_VX", 0xF00F#16, 0x800E#16⟩,
   ⟨"SNE_VX__VY", 0xF00F#16, 0x9000#16⟩]

/-- Rows 20 to 25 of R96. -/
def opcodeRowsIndex : List OpcodeRow :=
  [⟨"LD_I__NNN", 0xF000#16, 0xA000#16⟩,
   ⟨"JP_V0__NNN", 0xF000#16, 0xB000#16⟩,
   ⟨"RND_VX__NN", 0xF000#16, 0xC000#16⟩,
   ⟨"DRW_VX__VY__N", 0xF000#16, 0xD000#16⟩,
   ⟨"SKP_VX", 0xF0FF#16, 0xE09E#16⟩,
   ⟨"SKNP_VX", 0xF0FF#16, 0xE0A1#16⟩]

/-- Rows 26 to 34 of R96. -/
def opcodeRowsFX : List OpcodeRow :=
  [⟨"LD_VX__DT", 0xF0FF#16, 0xF007#16⟩,
   ⟨"LD_VX__K", 0xF0FF#16, 0xF00A#16⟩,
   ⟨"LD_DT__VX", 0xF0FF#16, 0xF015#16⟩,
   ⟨"LD_ST__VX", 0xF0FF#16, 0xF018#16⟩,
   ⟨"ADD_I__VX", 0xF0FF#16, 0xF01E#16⟩,
   ⟨"LD_F__VX", 0xF0FF#16, 0xF029#16⟩,
   ⟨"LD_B__VX", 0xF0FF#16, 0xF033#16⟩,
   ⟨"LD__I___VX", 0xF0FF#16, 0xF055#16⟩,
   ⟨"LD_VX___I", 0xF0FF#16, 0xF065#16⟩]

/-- The 34 rows of R96, in order. -/
def opcodeRows : List OpcodeRow :=
  opcodeRowsControl ++ opcodeRowsAlu ++ opcodeRowsIndex ++ opcodeRowsFX

/-- The row of R96 an instruction stands for. -/
def Instr.row : Instr → OpcodeRow
  | .cls => ⟨"CLS", 0xFFFF#16, 0x00E0#16⟩
  | .ret => ⟨"RET", 0xFFFF#16, 0x00EE#16⟩
  | .jp _ => ⟨"JP_NNN", 0xF000#16, 0x1000#16⟩
  | .call _ => ⟨"CALL_NNN", 0xF000#16, 0x2000#16⟩
  | .seImm _ _ => ⟨"SE_VX__NN", 0xF000#16, 0x3000#16⟩
  | .sneImm _ _ => ⟨"SNE_VX__NN", 0xF000#16, 0x4000#16⟩
  | .seReg _ _ => ⟨"SE_VX__VY", 0xF00F#16, 0x5000#16⟩
  | .ldImm _ _ => ⟨"LD_VX__NN", 0xF000#16, 0x6000#16⟩
  | .addImm _ _ => ⟨"ADD_VX__NN", 0xF000#16, 0x7000#16⟩
  | .ldReg _ _ => ⟨"LD_VX__VY", 0xF00F#16, 0x8000#16⟩
  | .orReg _ _ => ⟨"OR_VX__VY", 0xF00F#16, 0x8001#16⟩
  | .andReg _ _ => ⟨"AND_VX__VY", 0xF00F#16, 0x8002#16⟩
  | .xorReg _ _ => ⟨"XOR_VX__VY", 0xF00F#16, 0x8003#16⟩
  | .addReg _ _ => ⟨"ADD_VX__VY", 0xF00F#16, 0x8004#16⟩
  | .subReg _ _ => ⟨"SUB_VX__VY", 0xF00F#16, 0x8005#16⟩
  | .shr _ _ => ⟨"SHR_VX", 0xF00F#16, 0x8006#16⟩
  | .subnReg _ _ => ⟨"SUBN_VX__VY", 0xF00F#16, 0x8007#16⟩
  | .shl _ _ => ⟨"SHL_VX", 0xF00F#16, 0x800E#16⟩
  | .sneReg _ _ => ⟨"SNE_VX__VY", 0xF00F#16, 0x9000#16⟩
  | .ldI _ => ⟨"LD_I__NNN", 0xF000#16, 0xA000#16⟩
  | .jpV0 _ => ⟨"JP_V0__NNN", 0xF000#16, 0xB000#16⟩
  | .rnd _ _ => ⟨"RND_VX__NN", 0xF000#16, 0xC000#16⟩
  | .drw _ _ _ => ⟨"DRW_VX__VY__N", 0xF000#16, 0xD000#16⟩
  | .skp _ => ⟨"SKP_VX", 0xF0FF#16, 0xE09E#16⟩
  | .sknp _ => ⟨"SKNP_VX", 0xF0FF#16, 0xE0A1#16⟩
  | .ldVxDt _ => ⟨"LD_VX__DT", 0xF0FF#16, 0xF007#16⟩
  | .ldVxK _ => ⟨"LD_VX__K", 0xF0FF#16, 0xF00A#16⟩
  | .ldDtVx _ => ⟨"LD_DT__VX", 0xF0FF#16, 0xF015#16⟩
  | .ldStVx _ => ⟨"LD_ST__VX", 0xF0FF#16, 0xF018#16⟩
  | .addIVx _ => ⟨"ADD_I__VX", 0xF0FF#16, 0xF01E#16⟩
  | .ldF _ => ⟨"LD_F__VX", 0xF0FF#16, 0xF029#16⟩
  | .ldB _ => ⟨"LD_B__VX", 0xF0FF#16, 0xF033#16⟩
  | .ldMemVx _ => ⟨"LD__I___VX", 0xF0FF#16, 0xF055#16⟩
  | .ldVxMem _ => ⟨"LD_VX___I", 0xF0FF#16, 0xF065#16⟩

/-- An instruction word: some row of R96 selects it. Every other word is UnknownOpcode (R99). -/
def wordWellFormed (op : Word) : Bool := opcodeRows.any (fun r => r.selects op)

/-- A row stands in the table of R96. -/
def OpcodeRow.wellFormed (r : OpcodeRow) : Bool := opcodeRows.contains r

/-- An instruction is well formed when its row stands in the table: every one of the 34 is (R105). -/
def Instr.wellFormed (i : Instr) : Bool := i.row.wellFormed

/-- The domain of `load_program`: L ≤ PROG_MAX (spec/70_reset_and_hazards.md R323). -/
def imageWellFormed (progMax : Nat) (image : List Byte) : Bool := decide (image.length ≤ progMax)

/-- The domain of `set_key`: the index of one of the NKEYS keys (spec/48_host_interface.md R262). -/
def keyIndexWellFormed (nkeys index : Nat) : Bool := decide (index < nkeys)

end Sys2Proof
end

