-- ==== Sys2Proof/Decode.lean ====
section
/-! DEFINITION. The instruction decoder (spec/30_encoding.md R90 to R102), a pure function of the 16-bit word, total,
which refuses every word outside the table as `unknownOpcode`; the same over bytes; and after it the encoder. -/

namespace Sys2Proof

/-! ## Fields of a word (R91, R92) -/

/-- n1 = op[15:12] -/
def nibble1 (op : Word) : Nibble := op.extractLsb' 12 4

/-- n2 = op[11:8] -/
def nibble2 (op : Word) : Nibble := op.extractLsb' 8 4

/-- n3 = op[7:4] -/
def nibble3 (op : Word) : Nibble := op.extractLsb' 4 4

/-- n4 = op[3:0], the field N -/
def nibble4 (op : Word) : Nibble := op.extractLsb' 0 4

/-- NN = op[7:0] -/
def fieldNN (op : Word) : Byte := op.extractLsb' 0 8

/-- NNN = op[11:0] -/
def fieldNNN (op : Word) : Addr12 := op.extractLsb' 0 12

/-- A register number from its 4-bit field. -/
def regOfNibble (n : Nibble) : Reg := n.toFin

/-- X = n2 -/
def fieldX (op : Word) : Reg := regOfNibble (nibble2 op)

/-- Y = n3 -/
def fieldY (op : Word) : Reg := regOfNibble (nibble3 op)

/-- The 4-bit field of a register number. -/
def nibbleOfReg (r : Reg) : Nibble := BitVec.ofFin r

/-! ## Bytes and words (R62, R90) -/

/-- The instruction word of two bytes: the byte at the lower address is the high byte (R62). -/
def wordOfBytes (hi lo : Byte) : Word := hi ++ lo

/-- The byte of a word that is stored at the lower address (R62, R90). -/
def highByte (op : Word) : Byte := op.extractLsb' 8 8

/-- The byte of a word that is stored at the higher address (R62, R90). -/
def lowByte (op : Word) : Byte := op.extractLsb' 0 8

/-! ## Decode -/

/-- Why a decode fails. -/
inductive DecodeError where
  /-- The word matches none of the 34 patterns; it carries the raw word "for diagnostics" (R94, R99). -/
  | unknownOpcode (op : Word)
  /-- Fewer than the two bytes of a word were given to `decodeBytes`. The machine never does that. -/
  | truncated (length : Nat)
  deriving DecidableEq, Repr

/-- n1 = 8: the nine register operations, by n4 (R97). -/
def decodeAlu (op : Word) : Except DecodeError Instr :=
  match (nibble4 op).toNat with
  | 0x0 => .ok (.ldReg (fieldX op) (fieldY op))
  | 0x1 => .ok (.orReg (fieldX op) (fieldY op))
  | 0x2 => .ok (.andReg (fieldX op) (fieldY op))
  | 0x3 => .ok (.xorReg (fieldX op) (fieldY op))
  | 0x4 => .ok (.addReg (fieldX op) (fieldY op))
  | 0x5 => .ok (.subReg (fieldX op) (fieldY op))
  | 0x6 => .ok (.shr (fieldX op) (fieldY op))
  | 0x7 => .ok (.subnReg (fieldX op) (fieldY op))
  | 0xE => .ok (.shl (fieldX op) (fieldY op))
  | _ => .error (.unknownOpcode op)

/-- n1 = F: the nine FX instructions, by NN (R97). -/
def decodeFX (op : Word) : Except DecodeError Instr :=
  if fieldNN op = 0x07#8 then .ok (.ldVxDt (fieldX op))
  else if fieldNN op = 0x0A#8 then .ok (.ldVxK (fieldX op))
  else if fieldNN op = 0x15#8 then .ok (.ldDtVx (fieldX op))
  else if fieldNN op = 0x18#8 then .ok (.ldStVx (fieldX op))
  else if fieldNN op = 0x1E#8 then .ok (.addIVx (fieldX op))
  else if fieldNN op = 0x29#8 then .ok (.ldF (fieldX op))
  else if fieldNN op = 0x33#8 then .ok (.ldB (fieldX op))
  else if fieldNN op = 0x55#8 then .ok (.ldMemVx (fieldX op))
  else if fieldNN op = 0x65#8 then .ok (.ldVxMem (fieldX op))
  else .error (.unknownOpcode op)

/-- `decode(op)` (R94), by the leading nibble (R97). -/
def decode (op : Word) : Except DecodeError Instr :=
  match (nibble1 op).toNat with
  | 0x0 =>
    if op = 0x00E0#16 then .ok .cls
    else if op = 0x00EE#16 then .ok .ret
    else .error (.unknownOpcode op)
  | 0x1 => .ok (.jp (fieldNNN op))
  | 0x2 => .ok (.call (fieldNNN op))
  | 0x3 => .ok (.seImm (fieldX op) (fieldNN op))
  | 0x4 => .ok (.sneImm (fieldX op) (fieldNN op))
  | 0x5 =>
    if nibble4 op = 0x0#4 then .ok (.seReg (fieldX op) (fieldY op))
    else .error (.unknownOpcode op)
  | 0x6 => .ok (.ldImm (fieldX op) (fieldNN op))
  | 0x7 => .ok (.addImm (fieldX op) (fieldNN op))
  | 0x8 => decodeAlu op
  | 0x9 =>
    if nibble4 op = 0x0#4 then .ok (.sneReg (fieldX op) (fieldY op))
    else .error (.unknownOpcode op)
  | 0xA => .ok (.ldI (fieldNNN op))
  | 0xB => .ok (.jpV0 (fieldNNN op))
  | 0xC => .ok (.rnd (fieldX op) (fieldNN op))
  | 0xD => .ok (.drw (fieldX op) (fieldY op) (nibble4 op))
  | 0xE =>
    if fieldNN op = 0x9E#8 then .ok (.skp (fieldX op))
    else if fieldNN op = 0xA1#8 then .ok (.sknp (fieldX op))
    else .error (.unknownOpcode op)
  | _ => decodeFX op

/-- The instruction at the front of a sequence of bytes, with the bytes after it. -/
def decodeBytes : List Byte → Except DecodeError (Instr × List Byte)
  | hi :: lo :: rest =>
    match decode (wordOfBytes hi lo) with
    | .ok i => .ok (i, rest)
    | .error e => .error e
  | [] => .error (.truncated 0)
  | [_] => .error (.truncated 1)

/-! ## Encode -/

/-- The layout NNN of R93: n1 and an address. -/
def encodeNNN (n1 : Nibble) (nnn : Addr12) : Word := n1 ++ nnn

/-- The layout XNN of R93: n1, a register and an immediate. -/
def encodeXNN (n1 : Nibble) (x : Reg) (nn : Byte) : Word := n1 ++ nibbleOfReg x ++ nn

/-- The layouts XY and XYN of R93: n1, two registers and n4. -/
def encodeXYN (n1 : Nibble) (x y : Reg) (n4 : Nibble) : Word := n1 ++ nibbleOfReg x ++ nibbleOfReg y ++ n4

/-- The word of an instruction, from the patterns of R96. -/
def encode : Instr → Word
  | .cls => 0x00E0#16
  | .ret => 0x00EE#16
  | .jp nnn => encodeNNN 0x1#4 nnn
  | .call nnn => encodeNNN 0x2#4 nnn
  | .seImm x nn => encodeXNN 0x3#4 x nn
  | .sneImm x nn => encodeXNN 0x4#4 x nn
  | .seReg x y => encodeXYN 0x5#4 x y 0x0#4
  | .ldImm x nn => encodeXNN 0x6#4 x nn
  | .addImm x nn => encodeXNN 0x7#4 x nn
  | .ldReg x y => encodeXYN 0x8#4 x y 0x0#4
  | .orReg x y => encodeXYN 0x8#4 x y 0x1#4
  | .andReg x y => encodeXYN 0x8#4 x y 0x2#4
  | .xorReg x y => encodeXYN 0x8#4 x y 0x3#4
  | .addReg x y => encodeXYN 0x8#4 x y 0x4#4
  | .subReg x y => encodeXYN 0x8#4 x y 0x5#4
  | .shr x y => encodeXYN 0x8#4 x y 0x6#4
  | .subnReg x y => encodeXYN 0x8#4 x y 0x7#4
  | .shl x y => encodeXYN 0x8#4 x y 0xE#4
  | .sneReg x y => encodeXYN 0x9#4 x y 0x0#4
  | .ldI nnn => encodeNNN 0xA#4 nnn
  | .jpV0 nnn => encodeNNN 0xB#4 nnn
  | .rnd x nn => encodeXNN 0xC#4 x nn
  | .drw x y n => encodeXYN 0xD#4 x y n
  | .skp x => encodeXNN 0xE#4 x 0x9E#8
  | .sknp x => encodeXNN 0xE#4 x 0xA1#8
  | .ldVxDt x => encodeXNN 0xF#4 x 0x07#8
  | .ldVxK x => encodeXNN 0xF#4 x 0x0A#8
  | .ldDtVx x => encodeXNN 0xF#4 x 0x15#8
  | .ldStVx x => encodeXNN 0xF#4 x 0x18#8
  | .addIVx x => encodeXNN 0xF#4 x 0x1E#8
  | .ldF x => encodeXNN 0xF#4 x 0x29#8
  | .ldB x => encodeXNN 0xF#4 x 0x33#8
  | .ldMemVx x => encodeXNN 0xF#4 x 0x55#8
  | .ldVxMem x => encodeXNN 0xF#4 x 0x65#8

/-- A word as the memory stores it, high byte first (R62, R90). -/
def bytesOfWord (op : Word) : List Byte := [highByte op, lowByte op]

/-- The bytes of an instruction as the memory stores them. -/
def encodeBytes (i : Instr) : List Byte := bytesOfWord (encode i)

/-! ## The host's reading of an opcode-table word -/

/-- The instruction word whose low `nbits` bits are those of `w`, every bit above them 0. -/
def tableWord (nbits w : Nat) : Word := BitVec.ofNat 16 (w % 2 ^ nbits)

/-- What the decoder reads from the word `w` of a row of spec/opcode_table.json that has `nbits` bits: the word laid out
as the memory stores it, given to `decodeBytes`. -/
def decodeTableWord (nbits w : Nat) : Option Instr :=
  match decodeBytes (bytesOfWord (tableWord nbits w)) with
  | .ok (i, _) => some i
  | .error _ => none

end Sys2Proof
end

