-- ==== Sys2Proof/Config.lean ====
section
/-! DEFINITION. What an implementation fixes (spec/00_scope.md R6) as the fields of one record, and the free values:
opaque constants for what the spec leaves unspecified (spec/60_exceptions.md R286, decision D34). The values this
hardware gives the record's fields stand in Machine/Params.lean. The widths and counts also fix the types of Word.lean
and Machine/State.lean; that the types are those of the record is `types_have_the_widths_of_params` in Laws/State.lean. -/

namespace Sys2Proof.Config

/-- The register the two shift instructions read (R169, decision D4). -/
inductive ShiftSource where
  /-- shift `V[X]` in place -/
  | vx
  /-- shift `V[Y]` into `V[X]` -/
  | vy
  deriving DecidableEq, Repr

/-- The parameters of R6, in its order. -/
structure Params where
  /-- `MEM_SIZE`: the number of memory cells -/
  memSize : Nat
  /-- `FONT_BASE`: the address of glyph 0 -/
  fontBase : Nat
  /-- `GLYPH_BYTES`: bytes per glyph -/
  glyphBytes : Nat
  /-- `FONT_BYTES`: the length of the glyph table -/
  fontBytes : Nat
  /-- `FONT`: the glyph table -/
  font : List Byte
  /-- `PROG_BASE`: the load address and the reset value of `pc` -/
  progBase : Nat
  /-- `PROG_MAX`: the longest program image -/
  progMax : Nat
  /-- `NREGS`: the number of general registers -/
  nregs : Nat
  /-- `REG_BITS`: the width of a general register -/
  regBits : Nat
  /-- `I_BITS`: the width of the index register -/
  iBits : Nat
  /-- `PC_BITS`: the width of the program counter -/
  pcBits : Nat
  /-- `TIMER_BITS`: the width of each timer -/
  timerBits : Nat
  /-- `STACK_DEPTH`: the capacity of the call stack -/
  stackDepth : Nat
  /-- `NKEYS`: the number of keys -/
  nkeys : Nat
  /-- `DISP_W`: the columns of the framebuffer -/
  dispW : Nat
  /-- `DISP_H`: the rows of the framebuffer -/
  dispH : Nat
  /-- `INSTR_BYTES`: the length of an instruction -/
  instrBytes : Nat
  /-- `LCG_A` -/
  lcgA : Nat
  /-- `LCG_C` -/
  lcgC : Nat
  /-- `LCG_M` -/
  lcgM : Nat
  /-- `SEED_INIT`: the seed at construction (open, D15) -/
  seedInit : Word
  /-- `SHIFT_SOURCE` (open, D4) -/
  shiftSource : ShiftSource
  /-- `JUMP_OFFSET_REG`: the register BNNN adds (D3) -/
  jumpOffsetReg : Reg
  /-- `FLAG_WRITE_LAST`: VF receives the flag after the result is written (D5) -/
  flagWriteLast : Bool
  /-- `REDRAW_INIT` (open, D14) -/
  redrawInit : Bool
  deriving DecidableEq, Repr

/-- FREE VALUE: of the n-th occasion, whether element k holds the value the instruction would have written (true) or
keeps its old value (false) after DataAddressOutOfRange (R286, D34). No body: nothing can tell which. -/
opaque freeChoice : Nat → Nat → Bool

/-- FREE VALUE: of the n-th occasion, byte k where the spec states no byte: which bits of a sprite row were drawn before
DataAddressOutOfRange, and what a register would have received from an address that does not exist (R286, D34). -/
opaque freeByte : Nat → Nat → Byte

end Sys2Proof.Config
end

