-- ==== Sys2Proof/Machine/Params.lean ====
section
/-! DEFINITION. The values this hardware gives the parameters of spec/00_scope.md R6, with the font table of
spec/10_state.md R41. Marks: `shiftSource`, `redrawInit` and `seedInit` are the spec's OPEN parameters at their
defaults, DESIGN CHOICE of the spec (logs 9, 13, 14); `jumpOffsetReg`, `flagWriteLast` and the font bytes 5..79 are
decided by the spec against a silent source (logs 11, 10, 8). -/

namespace Sys2Proof.Machine

/-- Glyphs 0 to 7 of R41, five bytes each, top row first. Glyph 0 is the source's; the others are from general
knowledge (D17, log 8). -/
def fontGlyphs0to7 : List Byte :=
  [0xF0, 0x90, 0x90, 0x90, 0xF0,
   0x20, 0x60, 0x20, 0x20, 0x70,
   0xF0, 0x10, 0xF0, 0x80, 0xF0,
   0xF0, 0x10, 0xF0, 0x10, 0xF0,
   0x90, 0x90, 0xF0, 0x10, 0x10,
   0xF0, 0x80, 0xF0, 0x10, 0xF0,
   0xF0, 0x80, 0xF0, 0x90, 0xF0,
   0xF0, 0x10, 0x20, 0x40, 0x40]

/-- Glyphs 8 to F of R41 (D17, log 8). -/
def fontGlyphs8toF : List Byte :=
  [0xF0, 0x90, 0xF0, 0x90, 0xF0,
   0xF0, 0x90, 0xF0, 0x10, 0xF0,
   0xF0, 0x90, 0xF0, 0x90, 0x90,
   0xE0, 0x90, 0xE0, 0x90, 0xE0,
   0xF0, 0x80, 0x80, 0x80, 0xF0,
   0xE0, 0x90, 0x90, 0x90, 0xE0,
   0xF0, 0x80, 0xF0, 0x80, 0xF0,
   0xF0, 0x80, 0xF0, 0x80, 0x80]

/-- The parameters of this hardware (R6). -/
def params : Config.Params where
  memSize := 4096
  fontBase := 0
  glyphBytes := 5
  fontBytes := 80
  font := fontGlyphs0to7 ++ fontGlyphs8toF
  progBase := 512
  progMax := 3584
  nregs := 16
  regBits := 8
  iBits := 16
  pcBits := 16
  timerBits := 8
  stackDepth := 16
  nkeys := 16
  dispW := 64
  dispH := 32
  instrBytes := 2
  lcgA := 75
  lcgC := 74
  lcgM := 65536
  seedInit := 888
  shiftSource := .vx
  jumpOffsetReg := 0
  flagWriteLast := true
  redrawInit := false

end Sys2Proof.Machine
end

