-- ==== Sys2Proof/Machine/State.lean ====
section
/-! DEFINITION. The state of the core, exactly the elements of spec/10_state.md R20 and one counter of the model's own
(`freeCount`), as plain data; the faults and refusals; and the state after `reset` (spec/10_state.md R40,
spec/70_reset_and_hazards.md R324). -/

namespace Sys2Proof.Machine

/-- The fatal faults of spec/60_exceptions.md R281, codes 2 to 6. The entry of each is described by the spec (R290,
R292): the fault is latched in `halted` and the step ends in a NEXT state, so no step of this model answers
`Host.Outcome.fault`. Safe: after it every step is refused until `reset`. -/
inductive Fault where
  /-- code 2, raised by CALL with 16 entries on the stack (R283). Safe. -/
  | stackOverflow
  /-- code 3, raised by a step that begins with `pc` > 4094; it records that `pc` (R285). Safe. -/
  | fetchOutOfRange (pc0 : Word)
  /-- code 4, raised by RET with an empty stack (R284, D9). Safe. -/
  | stackUnderflow
  /-- code 5, raised by DRW, LD B, LD [I] and LD VX,[I] at an address a > 4095 (R286, D7). Safe. -/
  | dataAddressOutOfRange (a : Nat)
  /-- code 6, raised by SKP and SKNP with `V[X]` = v > 15 (R287, D8). Safe. -/
  | keyIndexOutOfRange (v : Byte)
  deriving DecidableEq, Repr

/-- Why an operation is refused: it changes nothing. -/
inductive Refusal where
  /-- An instruction whose arm has no meaning yet. No arm of this model raises it. Safe. -/
  | notModelled (mnemonic : String)
  /-- The outcome `Refused(f)`: `step` while `halted` = f (spec/40_step_cycle.md R121). Safe: nothing changes. -/
  | halted (f : Fault)
  /-- The host operation `set_key` with an index above 15: no transition (spec/48_host_interface.md R262, D24). Safe. -/
  | keyIndexOutsideDomain (index : Nat)
  /-- The host operation `load_program` with an image above 3584 bytes: no transition
  (spec/70_reset_and_hazards.md R323, D24). Safe. -/
  | programTooLong (length : Nat)
  deriving DecidableEq, Repr

/-- Memory as (address, byte) pairs in canonical form: addresses strictly rising, each below 4096, no entry equal to what
an unlisted address reads as (Machine/Memory.lean, `Memory.wf`). -/
abbrev Memory := List Host.Cell

/-- The framebuffer, 32 rows of 64 one-bit cells: cell x + 64 y is bit x of row y (R34). -/
abbrev Display := Vector PixelRow 32

/-- The state of the core (R20). -/
structure State where
  /-- `memory`: 4096 bytes (R60) -/
  memory : Memory
  /-- `pc`: 16 bits (R23) -/
  pc : Word
  /-- `V0`..`VF` (R21) -/
  V : Vector Byte 16
  /-- `I`: 16 bits (R27) -/
  I : Word
  /-- `DT`, the delay timer (R28) -/
  DT : Byte
  /-- `ST`, the sound timer (R28) -/
  ST : Byte
  /-- the live entries of the call stack, most recently pushed first; `sp` is its length (R30, D27) -/
  stack : List Word
  /-- `Key[0]`..`Key[15]`, true while pressed (R33) -/
  keypad : Vector Bool 16
  /-- the framebuffer (R34) -/
  display : Display
  /-- `redraw_pending` (R35) -/
  redrawPending : Bool
  /-- `key_wait_latch` (R36) -/
  keyWaitLatch : Option Key
  /-- `seed` of the entropy source (R37) -/
  seed : Word
  /-- `halted` (R38) -/
  halted : Option Fault
  /-- THE MODEL'S OWN: how many times the spec has left state unspecified (R286); it picks the free values (log 5) -/
  freeCount : Nat
  deriving DecidableEq, Repr

/-- The outcome of an instruction or of a step. -/
abbrev Outcome := Host.Outcome State Fault Refusal

/-- The state after `reset` (R40, column "after reset"; R324): the font is loaded and the rest of memory is zero, which
is what an unlisted address reads as. -/
def State.reset : State where
  memory := []
  pc := BitVec.ofNat params.pcBits params.progBase
  V := Vector.replicate _ 0
  I := 0
  DT := 0
  ST := 0
  stack := []
  keypad := Vector.replicate _ false
  display := Vector.replicate _ 0
  redrawPending := params.redrawInit
  keyWaitLatch := none
  seed := params.seedInit
  halted := none
  freeCount := 0

end Sys2Proof.Machine
end

