-- ==== Sys2Proof/Machine/Memory.lean ====
section
/-! DEFINITION. Memory as a canonical list of cells (spec/20_memory.md R60, R68): what an unlisted address reads as, the
read and the write of one byte, and the canonical form. -/

namespace Sys2Proof.Machine

/-- What an address that memory does not list reads as: the reset contents, FONT at the font's addresses and zero
elsewhere (spec/10_state.md R40, R41). -/
def Memory.background (a : Nat) : Byte :=
  if a < params.fontBase then 0 else params.font.getD (a - params.fontBase) 0

/-- The byte at an address. -/
def Memory.read : Memory → Nat → Byte
  | [], a => Memory.background a
  | (b, v) :: m, a => if a = b then v else Memory.read m a

/-- Memory with every entry of address `a` taken out. -/
def Memory.without (m : Memory) (a : Nat) : Memory := m.filter (fun c => c.1 != a)

/-- An entry put before the first entry of a higher address. -/
def Memory.place : Memory → Nat → Byte → Memory
  | [], a, v => [(a, v)]
  | (b, w) :: m, a, v => if a < b then (a, v) :: (b, w) :: m else (b, w) :: Memory.place m a v

/-- `memory[a] <- v`, keeping the canonical form: writing what an unlisted address reads as lists nothing. -/
def Memory.write (m : Memory) (a : Nat) (v : Byte) : Memory :=
  if v = Memory.background a then m.without a else (m.without a).place a v

/-- Bytes written at ascending addresses from `a`. -/
def Memory.writeBytes (m : Memory) (a : Nat) : List Byte → Memory
  | [] => m
  | v :: vs => (m.write a v).writeBytes (a + 1) vs

/-- Bytes written at ascending addresses from `a`, but only those that exist and that `pick` picks; the bytes are
numbered from `k`. What a store that faulted part-way leaves (R286). -/
def Memory.writeChosen (pick : Nat → Bool) (m : Memory) (a k : Nat) : List Byte → Memory
  | [] => m
  | v :: vs =>
    if a < params.memSize && pick k then (m.write a v).writeChosen pick (a + 1) (k + 1) vs
    else m.writeChosen pick (a + 1) (k + 1) vs

/-- The canonical form from the address `lo` on: addresses strictly rising, inside memory, and no entry equal to what an
unlisted address reads as. -/
def Memory.wfFrom (lo : Nat) : Memory → Bool
  | [] => true
  | (a, v) :: m => decide (lo ≤ a) && decide (a < params.memSize) && (v != Memory.background a) && Memory.wfFrom (a + 1) m

/-- The canonical form of memory. -/
def Memory.wf (m : Memory) : Bool := m.wfFrom 0

end Sys2Proof.Machine
end

