-- ==== Sys2Proof/Machine/Ops.lean ====
section
/-! DEFINITION. The named operations over memory and registers that the meanings share: the primitives of
spec/00_scope.md R8, the call stack (spec/10_state.md R31, R32), the fetch (spec/40_step_cycle.md R122, R123), the
entropy source (spec/43_random.md R191), and TAKING A FAULT as one operation, `raise` (spec/60_exceptions.md R290,
R292). The spec has no return from a fault (R291): after UnknownOpcode the host calls `step` again, after a fatal fault
only the host's `reset` (Machine/HostOps.lean) clears the latch. -/

namespace Sys2Proof.Machine

/-! ## Registers -/

/-- `V[r]` (R8). -/
def State.reg (s : State) (r : Reg) : Byte := s.V.get r

/-- `V[r] <- v` (R8). -/
def State.setReg (s : State) (r : Reg) (v : Byte) : State := { s with V := s.V.set r v }

/-- `pc <- v` (R8). -/
def State.setPc (s : State) (v : Word) : State := { s with pc := v }

/-- `I <- v` (R8). -/
def State.setI (s : State) (v : Word) : State := { s with I := v }

/-- `DT <- v` (R8). -/
def State.setDT (s : State) (v : Byte) : State := { s with DT := v }

/-- `ST <- v` (R8). -/
def State.setST (s : State) (v : Byte) : State := { s with ST := v }

/-- `sp`, the depth of the call stack (R30). -/
def State.sp (s : State) : Nat := s.stack.length

/-- `Key[k]` (R8). -/
def State.key (s : State) (k : Key) : Bool := s.keypad.get k

/-- `Disp[x, y]` (R8, R34): the cell of column x and row y. -/
def State.cell (s : State) (x : Fin 64) (y : Fin 32) : Bool := (s.display.get y).getLsbD x

/-! ## The program counter (R24) -/

/-- INSTR_BYTES = 2, the distance from an instruction to the next, as a word. -/
def instrLength : Word := BitVec.ofNat params.pcBits params.instrBytes

/-- The fetch's advance, `pc <- pc + 2` (spec/40_step_cycle.md R122). -/
def advance (s : State) : State := s.setPc (s.pc + instrLength)

/-- `skip`: a further `pc <- pc + 2` (R8). -/
def skip (s : State) : State := s.setPc (s.pc + instrLength)

/-- `skip` when a test passes. -/
def skipIf (test : Bool) (s : State) : State := if test then skip s else s

/-- `pc <- pc - 2`: the key wait's step back (spec/45_input.md R223). -/
def rewind (s : State) : State := s.setPc (s.pc - instrLength)

/-! ## Faults -/

/-- A fatal fault ends the step and latches: `halted <- f` (spec/60_exceptions.md R290, R292). Nothing is saved, no mode
changes and nothing else is written; `pc` stays where the fetch left it. The outcome `Fatal(f)` is delivered to the host
(`stepReport`), and the state the fault leaves is the next state. -/
def raise (f : Fault) (s : State) : Outcome := .next { s with halted := some f }

/-- `step` on a halted core: the outcome `Refused(f)`, and nothing changes (spec/40_step_cycle.md R121). -/
def refuseHalted (f : Fault) : Outcome := .refused (.halted f)

/-- `step` on a word that does not decode: nothing but the fetch's advance, already made, and the core goes on
(spec/40_step_cycle.md R124, spec/60_exceptions.md R282, R291). -/
def takeUnknownOpcode (s : State) : Outcome := .next s

/-! ## Memory access -/

/-- `MemRead(a, 1)` (spec/20_memory.md R63). -/
def memRead (s : State) (a : Nat) : Except Fault Byte :=
  if a < params.memSize then .ok (s.memory.read a) else .error (.dataAddressOutOfRange a)

/-- `MemWrite(a, 1, v)` (spec/20_memory.md R64). -/
def memWrite (s : State) (a : Nat) (v : Byte) : Except Fault State :=
  if a < params.memSize then .ok { s with memory := s.memory.write a v } else .error (.dataAddressOutOfRange a)

/-- `MemRead` of `n` bytes at ascending addresses from `a` (spec/20_memory.md R65). -/
def readFrom (s : State) (a : Nat) : Nat → Except Fault (List Byte)
  | 0 => .ok []
  | n + 1 =>
    match memRead s a with
    | .error f => .error f
    | .ok v =>
      match readFrom s (a + 1) n with
      | .error f => .error f
      | .ok vs => .ok (v :: vs)

/-- `MemWrite` of bytes at ascending addresses from `a` (spec/20_memory.md R65). -/
def storeFrom (s : State) (a : Nat) : List Byte → Except Fault State
  | [] => .ok s
  | v :: vs =>
    match memWrite s a v with
    | .error f => .error f
    | .ok t => storeFrom t (a + 1) vs

/-- `Fetch16(a)`: the big-endian word at a, a + 1 (spec/20_memory.md R62). -/
def fetch16 (m : Memory) (a : Nat) : Word := wordOfBytes (m.read a) (m.read (a + 1))

/-- Phase 1 of a step: the word at `pc`, if both its bytes lie in memory (spec/40_step_cycle.md R122, R123). -/
def fetch (s : State) : Except Fault Word :=
  if s.pc.toNat + 1 < params.memSize then .ok (fetch16 s.memory s.pc.toNat) else .error (.fetchOutOfRange s.pc)

/-! ## The call stack -/

/-- `Push(v)` (spec/10_state.md R31). -/
def push (v : Word) (s : State) : Except Fault State :=
  if params.stackDepth ≤ s.stack.length then .error .stackOverflow else .ok { s with stack := v :: s.stack }

/-- `Pop()`: the entry taken off and the state without it (spec/10_state.md R32). -/
def pop (s : State) : Except Fault (Word × State) :=
  match s.stack with
  | [] => .error .stackUnderflow
  | v :: rest => .ok (v, { s with stack := rest })

/-! ## The entropy source -/

/-- `seed' = (A * seed + C) mod M`, the product exact (spec/43_random.md R190, R191). -/
def nextSeed (seed : Word) : Word := BitVec.ofNat 16 ((params.lcgA * seed.toNat + params.lcgC) % params.lcgM)

/-- `NextRandom()`: the new seed and the state that holds it (spec/43_random.md R191). -/
def nextRandom (s : State) : Word × State := (nextSeed s.seed, { s with seed := nextSeed s.seed })

/-! ## What a data access that faulted part-way leaves (spec/60_exceptions.md R286, D34; log 4) -/

/-- The occasion has been used. -/
def State.tickFree (s : State) : State := { s with freeCount := s.freeCount + 1 }

/-- A store of bytes from `a` that faulted: each byte that has an address holds its old or its new value. -/
def storeHalfDone (a : Nat) (bytes : List Byte) (s : State) : State :=
  { s with memory := s.memory.writeChosen (Config.freeChoice s.freeCount) a 0 bytes }.tickFree

/-- What register k of a load from `a` would have received: the byte at its address, or a free byte where that address
does not exist. -/
def loadCandidate (a : Nat) (s : State) (k : Nat) : Byte :=
  match memRead s (a + k) with
  | .ok v => v
  | .error _ => Config.freeByte s.freeCount k

/-- A load of registers V0..VX from `a` that faulted: each of them holds its old value or what it would have received. -/
def loadHalfDone (a : Nat) (x : Reg) (s : State) : State :=
  { s with V := Vector.ofFn (fun r : Reg =>
      if r ≤ x && Config.freeChoice s.freeCount r then loadCandidate a s r else s.reg r) }.tickFree

end Sys2Proof.Machine
end

