-- ==== Sys2Proof/Machine/Operands.lean ====
section
/-! DEFINITION. Every operand form of the instruction set: immediates (spec/30_encoding.md R92), registers V0..VX as a
list, the address forms through `I` (spec/47_memory_index.md R247), the shift's source (spec/42_register_alu.md R169),
the jump's offset (R144), a key index (spec/45_input.md R222), the glyph address (R242), decimal digits (R243) and the
sprite's corner (spec/44_display.md R202). -/

namespace Sys2Proof.Machine

/-- `zext_16(NNN)` (R92). -/
def addrWord (nnn : Addr12) : Word := nnn.setWidth params.pcBits

/-- `zext_16` of a byte. -/
def byteWord (b : Byte) : Word := b.setWidth params.iBits

/-- The target of BNNN: NNN plus the offset register, not reduced (R144). -/
def jumpOffsetTarget (nnn : Addr12) (s : State) : Word := addrWord nnn + byteWord (s.reg params.jumpOffsetReg)

/-- The operand `S` of the shifts under either setting of SHIFT_SOURCE (R169). -/
def shiftOperand (source : Config.ShiftSource) (x y : Reg) (s : State) : Byte :=
  match source with
  | .vx => s.reg x
  | .vy => s.reg y

/-- The key named by the whole value of `V[X]`, unmasked (R222). -/
def keyOperand (x : Reg) (s : State) : Except Fault Key :=
  if h : (s.reg x).toNat < params.nkeys then .ok ⟨(s.reg x).toNat, h⟩ else .error (.keyIndexOutOfRange (s.reg x))

/-- The pressed key of the lowest index, found by testing them in ascending order (R223). -/
def firstPressed (s : State) : Option Key := (List.finRange params.nkeys).find? (fun k => s.key k)

/-- A key index as the byte a register receives (R223). -/
def keyByte (k : Key) : Byte := BitVec.ofNat 8 k

/-- The address `I`, an unbounded natural number (spec/20_memory.md R69). -/
def indexAddr (s : State) : Nat := s.I.toNat

/-- `I + X + 1`, the value of `I` after a bulk store or load (R245, R246). -/
def indexAfter (x : Reg) (s : State) : Word := BitVec.ofNat params.iBits (s.I.toNat + x + 1)

/-- The glyph address of a byte's low nibble (R242). -/
def glyphAddr (v : Byte) : Word := BitVec.ofNat params.iBits (params.fontBase + v.toNat % 16 * params.glyphBytes)

/-- The hundreds, tens and units of a byte (R243). -/
def decimalDigits (v : Byte) : List Byte :=
  [BitVec.ofNat 8 (v.toNat / 100), BitVec.ofNat 8 (v.toNat / 10 % 10), BitVec.ofNat 8 (v.toNat % 10)]

/-- `V[0]`, ..., `V[X]` (R245). -/
def regsThrough (x : Reg) (s : State) : List Byte := s.V.toList.take (x + 1)

/-- `V[k] <- ` the k-th of some bytes, for as many as there are (R246). -/
def setRegs (bytes : List Byte) (s : State) : State :=
  { s with V := Vector.ofFn (fun r : Reg => bytes.getD r (s.reg r)) }

/-- x0: the start column, wrapped (R202). -/
def startColumn (x : Reg) (s : State) : Nat := (s.reg x).toNat % params.dispW

/-- y0: the start row, wrapped (R202). -/
def startRow (y : Reg) (s : State) : Nat := (s.reg y).toNat % params.dispH

end Sys2Proof.Machine
end

