-- ==== Sys2Proof/Machine/Flags.lean ====
section
/-! DEFINITION. Every flag computation of the instruction set, the 8-bit results beside them, and the order in which
result and flag are written (spec/42_register_alu.md R159 to R172). The only flag is a value of VF
(spec/10_state.md R29). -/

namespace Sys2Proof.Machine

/-- A flag as the byte VF receives. -/
def flagByte (flag : Bool) : Byte := if flag then 1 else 0

/-- The carry out of bit 7: the exact sum is above 255 (R166). -/
def carryOut (a b : Byte) : Bool := decide (a.toNat + b.toNat > 255)

/-- The sum mod 256 (R161, R166). -/
def sumByte (a b : Byte) : Byte := BitVec.ofNat 8 (a.toNat + b.toNat)

/-- The not-borrow of a - b: 1 when a ≥ b, equality included (R167, D33). -/
def notBorrow (a b : Byte) : Bool := decide (a.toNat ≥ b.toNat)

/-- The difference mod 256: a - b + 256 when a < b (R167). -/
def differenceByte (a b : Byte) : Byte := BitVec.ofNat 8 (a.toNat + 256 - b.toNat)

/-- The bit a right shift by one drops (R168). -/
def droppedRight (v : Byte) : Bool := v.getLsbD 0

/-- The bit a left shift by one drops (R171). -/
def droppedLeft (v : Byte) : Bool := v.getLsbD 7

/-- A result written to `V[X]` and a flag written to VF, in the order FLAG_WRITE_LAST says (R159, D5). -/
def writeResultAndFlag (flagLast : Bool) (x : Reg) (result : Byte) (flag : Bool) (s : State) : State :=
  if flagLast then (s.setReg x result).setReg VF (flagByte flag)
  else (s.setReg VF (flagByte flag)).setReg x result

/-- The same for this hardware's setting. -/
def writeFlagged (x : Reg) (result : Byte) (flag : Bool) (s : State) : State :=
  writeResultAndFlag params.flagWriteLast x result flag s

end Sys2Proof.Machine
end

