-- ==== Sys2Proof/Machine/ControlFlow.lean ====
section
/-! DEFINITION. The control-flow instructions (spec/41_control_flow.md R140 to R149). `pc` is already the address of
the next sequential instruction when a meaning runs (spec/40_step_cycle.md R122). -/

namespace Sys2Proof.Machine

/-- 00EE: `pc <- Pop()` (R140). -/
def execRet (s : State) : Outcome :=
  match pop s with
  | .error f => raise f s
  | .ok (v, t) => .next (t.setPc v)

/-- 1NNN: `pc <- zext_16(NNN)` (R141). -/
def execJp (nnn : Addr12) (s : State) : Outcome := .next (s.setPc (addrWord nnn))

/-- 2NNN: `Push(pc)`, then `pc <- zext_16(NNN)` (R142). -/
def execCall (nnn : Addr12) (s : State) : Outcome :=
  match push s.pc s with
  | .error f => raise f s
  | .ok t => .next (t.setPc (addrWord nnn))

/-- BNNN: `pc <- zext_16(NNN) + zext_16(V[0])` (R144). -/
def execJpV0 (nnn : Addr12) (s : State) : Outcome := .next (s.setPc (jumpOffsetTarget nnn s))

/-- 3XNN: skip if `V[X]` = NN (R145). -/
def execSeImm (x : Reg) (nn : Byte) (s : State) : Outcome := .next (skipIf (s.reg x == nn) s)

/-- 4XNN: skip if `V[X]` ≠ NN (R146). -/
def execSneImm (x : Reg) (nn : Byte) (s : State) : Outcome := .next (skipIf (s.reg x != nn) s)

/-- 5XY0: skip if `V[X]` = `V[Y]` (R147). -/
def execSeReg (x y : Reg) (s : State) : Outcome := .next (skipIf (s.reg x == s.reg y) s)

/-- 9XY0: skip if `V[X]` ≠ `V[Y]` (R148). -/
def execSneReg (x y : Reg) (s : State) : Outcome := .next (skipIf (s.reg x != s.reg y) s)

end Sys2Proof.Machine
end

