-- ==== Sys2Proof/Machine/DisplayOps.lean ====
section
/-! DEFINITION. The display instructions CLS and DRW (spec/44_display.md R200 to R209). -/

namespace Sys2Proof.Machine

/-- 00E0: every cell false, `redraw_pending` true (R200). -/
def execCls (s : State) : Outcome := .next { s with display := Vector.replicate _ 0, redrawPending := true }

/-- The bits `7 - c` of one sprite byte drawn on one row of the display from column x0, for c in a list in order, and
whether a cell that was true was hit. Drawing stops at the first column beyond the last (R201, R202, R203). -/
def drawBits (b : Byte) (x0 : Nat) : List Nat → PixelRow → Bool → PixelRow × Bool
  | [], row, hit => (row, hit)
  | c :: cs, row, hit =>
    if params.dispW ≤ x0 + c then (row, hit)
    else if b.getLsbD (7 - c) then drawBits b x0 cs (row ^^^ (1#64 <<< (x0 + c))) (hit || row.getLsbD (x0 + c))
    else drawBits b x0 cs row hit

/-- The columns of a sprite byte, most significant bit first (R201). -/
def spriteColumns : List Nat := [0, 1, 2, 3, 4, 5, 6, 7]

/-- n sprite rows from row r on, row r on the line y0 + r, its byte given by `rowByte`; stops at the first line below the last,
whose byte is not read (R201, R207). -/
def drawRows (rowByte : Nat → Except Fault Byte) (x0 y0 : Nat) : Nat → Nat → Display → Bool → Except Fault (Display × Bool)
  | 0, _, d, hit => .ok (d, hit)
  | n + 1, r, d, hit =>
    if h : y0 + r < params.dispH then
      match rowByte r with
      | .error f => .error f
      | .ok b =>
        match drawBits b x0 spriteColumns (d.get ⟨y0 + r, h⟩) hit with
        | (row, hit') => drawRows rowByte x0 y0 n (r + 1) (d.set (y0 + r) row) hit'
    else .ok (d, hit)

/-- The byte of sprite row r (R207). -/
def spriteByte (s : State) (r : Nat) : Except Fault Byte := memRead s (indexAddr s + r)

/-- After a row could not be read: the part of sprite row r that was drawn, each of its bits free to have been drawn or
not; a row that has no byte draws free bits (R286; log 4). -/
def spriteByteHalfDone (s : State) (r : Nat) : Except Fault Byte :=
  match spriteByte s r with
  | .ok b => .ok (b &&& Config.freeByte s.freeCount r)
  | .error _ => .ok (Config.freeByte s.freeCount r)

/-- After a row could not be read: VF holds its old value, or 0, or 1 (R286; log 4). -/
def flagHalfDone (s : State) : Byte :=
  if Config.freeChoice s.freeCount 0 then s.reg VF else flagByte (Config.freeChoice s.freeCount 1)

/-- The state a draw leaves that could not read one of its rows: cells and VF are unspecified, nothing else changes
(R286, R290). -/
def drawHalfDone (x y : Reg) (n : Nibble) (s : State) : State :=
  match drawRows (spriteByteHalfDone s) (startColumn x s) (startRow y s) n.toNat 0 s.display false with
  | .ok (d, _) => ({ s with display := d }.setReg VF (flagHalfDone s)).tickFree
  | .error _ => s.tickFree

/-- DXYN (R201): the corner and `I` are read first (R206, D6), the rows drawn, VF <- collision, and `redraw_pending` set
when N ≥ 1 (R204). -/
def execDrw (x y : Reg) (n : Nibble) (s : State) : Outcome :=
  match drawRows (spriteByte s) (startColumn x s) (startRow y s) n.toNat 0 s.display false with
  | .error f => raise f (drawHalfDone x y n s)
  | .ok (d, hit) =>
    .next ({ s with display := d, redrawPending := s.redrawPending || decide (1 ≤ n.toNat) }.setReg VF (flagByte hit))

end Sys2Proof.Machine
end

