-- ==== Sys2Proof/Machine/IndexMemory.lean ====
section
/-! DEFINITION. The index-register and memory instructions (spec/47_memory_index.md R240 to R247). -/

namespace Sys2Proof.Machine

/-- ANNN: `I <- zext_16(NNN)` (R240). -/
def execLdI (nnn : Addr12) (s : State) : Outcome := .next (s.setI (addrWord nnn))

/-- FX1E: `I <- (I + zext_16(V[X])) mod 65536`, no flag (R241). -/
def execAddIVx (x : Reg) (s : State) : Outcome := .next (s.setI (s.I + byteWord (s.reg x)))

/-- FX29: `I <- ` the glyph address of the low nibble of `V[X]` (R242). -/
def execLdF (x : Reg) (s : State) : Outcome := .next (s.setI (glyphAddr (s.reg x)))

/-- FX33: the three decimal digits of `V[X]` to memory at `I`; `I` unchanged (R243). -/
def execLdB (x : Reg) (s : State) : Outcome :=
  match storeFrom s (indexAddr s) (decimalDigits (s.reg x)) with
  | .error f => raise f (storeHalfDone (indexAddr s) (decimalDigits (s.reg x)) s)
  | .ok t => .next t

/-- FX55: `V[0]`..`V[X]` to memory at `I`, then `I <- I + X + 1` (R245). -/
def execLdMemVx (x : Reg) (s : State) : Outcome :=
  match storeFrom s (indexAddr s) (regsThrough x s) with
  | .error f => raise f (storeHalfDone (indexAddr s) (regsThrough x s) s)
  | .ok t => .next (t.setI (indexAfter x s))

/-- FX65: `V[0]`..`V[X]` from memory at `I`, then `I <- I + X + 1` (R246). -/
def execLdVxMem (x : Reg) (s : State) : Outcome :=
  match readFrom s (indexAddr s) (x + 1) with
  | .error f => raise f (loadHalfDone (indexAddr s) x s)
  | .ok bytes => .next ((setRegs bytes s).setI (indexAfter x s))

end Sys2Proof.Machine
end

