-- ==== Sys2Proof/Machine/Input.lean ====
section
/-! DEFINITION. The keypad instructions (spec/45_input.md R220 to R225). -/

namespace Sys2Proof.Machine

/-- EX9E: skip if the key named by `V[X]` is pressed (R220). -/
def execSkp (x : Reg) (s : State) : Outcome :=
  match keyOperand x s with
  | .error f => raise f s
  | .ok k => .next (skipIf (s.key k) s)

/-- EXA1: skip if the key named by `V[X]` is not pressed (R221). -/
def execSknp (x : Reg) (s : State) : Outcome :=
  match keyOperand x s with
  | .error f => raise f s
  | .ok k => .next (skipIf (!s.key k) s)

/-- FX0A: the first pressed key to `V[X]` and the latch; with none pressed, back to this instruction (R223, R225). -/
def execLdVxK (x : Reg) (s : State) : Outcome :=
  match firstPressed s with
  | some k => .next { s.setReg x (keyByte k) with keyWaitLatch := some k }
  | none => .next (rewind s)

end Sys2Proof.Machine
end

