-- ==== Sys2Proof/Machine/Random.lean ====
section
/-! DEFINITION. The random instruction (spec/43_random.md R193). -/

namespace Sys2Proof.Machine

/-- CXNN: one draw, its low byte under the mask NN to `V[X]` (R193). -/
def execRnd (x : Reg) (nn : Byte) (s : State) : Outcome :=
  match nextRandom s with
  | (r, t) => .next (t.setReg x (lowByte r &&& nn))

end Sys2Proof.Machine
end

