-- ==== Sys2Proof/Machine/RegisterAlu.lean ====
section
/-! DEFINITION. The register and arithmetic instructions (spec/42_register_alu.md R159 to R173). In each, both operands
are read from the state before the instruction (R159). -/

namespace Sys2Proof.Machine

/-- 6XNN: `V[X] <- NN` (R160). -/
def execLdImm (x : Reg) (nn : Byte) (s : State) : Outcome := .next (s.setReg x nn)

/-- 7XNN: `V[X] <- (V[X] + NN) mod 256`, no flag (R161). -/
def execAddImm (x : Reg) (nn : Byte) (s : State) : Outcome := .next (s.setReg x (sumByte (s.reg x) nn))

/-- 8XY0: `V[X] <- V[Y]` (R162). -/
def execLdReg (x y : Reg) (s : State) : Outcome := .next (s.setReg x (s.reg y))

/-- 8XY1: OR, VF <- 0 (R163). -/
def execOr (x y : Reg) (s : State) : Outcome := .next (writeFlagged x (s.reg x ||| s.reg y) false s)

/-- 8XY2: AND, VF <- 0 (R164). -/
def execAnd (x y : Reg) (s : State) : Outcome := .next (writeFlagged x (s.reg x &&& s.reg y) false s)

/-- 8XY3: XOR, VF <- 0 (R165). -/
def execXor (x y : Reg) (s : State) : Outcome := .next (writeFlagged x (s.reg x ^^^ s.reg y) false s)

/-- 8XY4: add, VF <- carry (R166). -/
def execAdd (x y : Reg) (s : State) : Outcome :=
  .next (writeFlagged x (sumByte (s.reg x) (s.reg y)) (carryOut (s.reg x) (s.reg y)) s)

/-- 8XY5: `V[X] - V[Y]`, VF <- not-borrow (R167). -/
def execSub (x y : Reg) (s : State) : Outcome :=
  .next (writeFlagged x (differenceByte (s.reg x) (s.reg y)) (notBorrow (s.reg x) (s.reg y)) s)

/-- 8XY6 under either setting of SHIFT_SOURCE: shift right by one, VF <- the dropped bit (R168, R169). -/
def shrFrom (source : Config.ShiftSource) (x y : Reg) (s : State) : Outcome :=
  .next (writeFlagged x (shiftOperand source x y s >>> 1) (droppedRight (shiftOperand source x y s)) s)

/-- 8XY6 (R168), for this hardware's SHIFT_SOURCE (log 9). -/
def execShr (x y : Reg) (s : State) : Outcome := shrFrom params.shiftSource x y s

/-- 8XY7: `V[Y] - V[X]`, VF <- not-borrow (R170). -/
def execSubn (x y : Reg) (s : State) : Outcome :=
  .next (writeFlagged x (differenceByte (s.reg y) (s.reg x)) (notBorrow (s.reg y) (s.reg x)) s)

/-- 8XYE under either setting of SHIFT_SOURCE: shift left by one, VF <- the dropped bit (R171, R169). -/
def shlFrom (source : Config.ShiftSource) (x y : Reg) (s : State) : Outcome :=
  .next (writeFlagged x (shiftOperand source x y s <<< 1) (droppedLeft (shiftOperand source x y s)) s)

/-- 8XYE (R171), for this hardware's SHIFT_SOURCE (log 9). -/
def execShl (x y : Reg) (s : State) : Outcome := shlFrom params.shiftSource x y s

end Sys2Proof.Machine
end

