-- ==== Sys2Proof/Machine/Timers.lean ====
section
/-! DEFINITION. The timer instructions (spec/46_timers.md R230 to R234). No instruction decrements a timer (R233). -/

namespace Sys2Proof.Machine

/-- FX07: `V[X] <- DT` (R230). -/
def execLdVxDt (x : Reg) (s : State) : Outcome := .next (s.setReg x s.DT)

/-- FX15: `DT <- V[X]` (R231). -/
def execLdDtVx (x : Reg) (s : State) : Outcome := .next (s.setDT (s.reg x))

/-- FX18: `ST <- V[X]` (R232). -/
def execLdStVx (x : Reg) (s : State) : Outcome := .next (s.setST (s.reg x))

end Sys2Proof.Machine
end

