-- ==== Sys2Proof/Machine/Step.lean ====
section
/-! DEFINITION. `step`, one fetch-decode-execute cycle (spec/40_step_cycle.md R120 to R131), and the placing of a word
where the next step fetches it. -/

namespace Sys2Proof.Machine

/-- `step()` (R131): the halt check, the fetch, the decode, the execute phase. A halted core is refused; a word that does
not decode and a fatal fault end in a next state (logs 1 to 3). -/
def step (s : State) : Host.Outcome State Fault Refusal :=
  match s.halted with
  | some f => refuseHalted f
  | none =>
    match fetch s with
    | .error f => raise f s
    | .ok op =>
      match decode op with
      | .error _ => takeUnknownOpcode (advance s)
      | .ok i => exec i (advance s)

/-- The address the next step can fetch from: `pc` where a fetch there is in range, else the load address. -/
def fetchableAddr (s : State) : Nat := if s.pc.toNat + 1 < params.memSize then s.pc.toNat else params.progBase

/-- `s` with the instruction word `w` of `nbits` bits stored where the next step fetches it, high byte first. It stands
for the host's load of a program (spec/70_reset_and_hazards.md R325; log 31). Only what a fetch needs is changed: the
latch is clear, and a `pc` from which nothing can be fetched is moved to the load address. -/
def State.withFetchWord (s : State) (nbits w : Nat) : State :=
  { s with
    memory := s.memory.writeBytes (fetchableAddr s) (bytesOfWord (tableWord nbits w))
    pc := BitVec.ofNat 16 (fetchableAddr s)
    halted := none }

end Sys2Proof.Machine
end

