-- ==== Sys2Proof/Machine/HostOps.lean ====
section
/-! DEFINITION. The operations of the host on the core (spec/48_host_interface.md R260 to R270,
spec/70_reset_and_hazards.md R320 to R325) and what `step` reports to it (spec/40_step_cycle.md R126). Each is one
atomic transition between two steps; the host's schedule is a list of them (R267). `seedInit` is the construction's
SEED_INIT (spec/43_random.md R194), which `reset` restores (D15). -/

namespace Sys2Proof.Machine

/-! ## The outcome of a step, as a value (R126, R266) -/

/-- The outcomes of `step` (R126). -/
inductive StepReport where
  /-- `Ok` -/
  | ok
  /-- `UnknownOpcode(op)` -/
  | unknownOpcode (op : Word)
  /-- `Fatal(f)` -/
  | fatal (f : Fault)
  /-- `Refused(f)` -/
  | refused (f : Fault)
  /-- An execute phase that has no meaning: there is none in this model. -/
  | notExecuted
  deriving DecidableEq, Repr

/-- What an execute phase that began with a clear latch reports: `Fatal(f)` when it latched f, else `Ok` (R125). -/
def reportOf : Outcome → StepReport
  | .next t =>
    match t.halted with
    | some f => .fatal f
    | none => .ok
  | .fault f => .fatal f
  | .refused _ => .notExecuted

/-- The outcome `step` delivers to the host from the state `s` (R126, R131). -/
def stepReport (s : State) : StepReport :=
  match s.halted with
  | some f => .refused f
  | none =>
    match fetch s with
    | .error f => .fatal f
    | .ok op =>
      match decode op with
      | .error _ => .unknownOpcode op
      | .ok i => reportOf (exec i (advance s))

/-- The numeric cause codes of R281: labels only, the hardware stores none (D32). -/
def causeCode : StepReport → Option Nat
  | .ok => none
  | .unknownOpcode _ => some 1
  | .fatal .stackOverflow => some 2
  | .fatal (.fetchOutOfRange _) => some 3
  | .fatal .stackUnderflow => some 4
  | .fatal (.dataAddressOutOfRange _) => some 5
  | .fatal (.keyIndexOutOfRange _) => some 6
  | .refused _ => none
  | .notExecuted => none

/-! ## Construction, loading, reset -/

/-- Memory after construction: every byte zero, the font not yet loaded (spec/70_reset_and_hazards.md R320). -/
def Memory.blank : Memory := Memory.writeBytes [] params.fontBase (List.replicate params.fontBytes 0)

/-- Construction (R320; spec/10_state.md R40, column "after construction"). -/
def construct (seedInit : Word) : State := { State.reset with memory := Memory.blank, seed := seedInit }

/-- `load_font()`: FONT to the font's addresses (R322). -/
def loadFont (s : State) : State := { s with memory := s.memory.writeBytes params.fontBase params.font }

/-- `load_program(bytes)` (R323); an image that does not fit has no transition (D24). -/
def loadProgram (image : List Byte) (s : State) : Outcome :=
  if imageWellFormed params.progMax image then .next { s with memory := s.memory.writeBytes params.progBase image }
  else .refused (.programTooLong image.length)

/-- `reset()`: every element at its reset value, the font reloaded (R324). The model's own `freeCount` goes on. -/
def hostReset (seedInit : Word) (s : State) : State := { State.reset with seed := seedInit, freeCount := s.freeCount }

/-! ## Timers, keys, redraw -/

/-- A timer's count down, saturating at zero (spec/48_host_interface.md R261). -/
def tickDown (t : Byte) : Byte := if t.toNat > 0 then t - 1 else t

/-- `tick_timer()` (R261). -/
def tickTimer (s : State) : State := { s with DT := tickDown s.DT, ST := tickDown s.ST }

/-- `set_key(index, pressed)` (R262); an index above 15 has no transition (D24). -/
def setKey (index : Nat) (pressed : Bool) (s : State) : Outcome :=
  if h : keyIndexWellFormed params.nkeys index then .next { s with keypad := s.keypad.set index pressed (of_decide_eq_true h) }
  else .refused (.keyIndexOutsideDomain index)

/-- The acknowledge: `redraw_pending <- false` (R264). -/
def acknowledgeRedraw (s : State) : State := { s with redrawPending := false }

/-! ## What the host reads: none of these changes the state (R263 to R268) -/

/-- The display, cell index x + 64 y (R263). -/
def readDisplay (s : State) (index : Fin 2048) : Bool :=
  s.cell ⟨index % params.dispW, Nat.mod_lt _ (by decide)⟩ ⟨index / params.dispW, Nat.div_lt_of_lt_mul index.isLt⟩

/-- `redraw_pending` (R264). -/
def readRedraw (s : State) : Bool := s.redrawPending

/-- `delay_timer` (R265). -/
def readDelayTimer (s : State) : Byte := s.DT

/-- `sound_timer` (R265). -/
def readSoundTimer (s : State) : Byte := s.ST

/-- `key_wait_latch` (R268). -/
def readKeyWaitLatch (s : State) : Option Key := s.keyWaitLatch

/-! ## Schedules -/

/-- The operations that may change the core after construction (R260). -/
inductive HostOp where
  | loadFont
  | loadProgram (image : List Byte)
  | reset
  | step
  | tickTimer
  | setKey (index : Nat) (pressed : Bool)
  | acknowledgeRedraw
  deriving DecidableEq, Repr

/-- One operation. -/
def perform (seedInit : Word) : HostOp → State → Outcome
  | .loadFont, s => .next (loadFont s)
  | .loadProgram image, s => loadProgram image s
  | .reset, s => .next (hostReset seedInit s)
  | .step, s => step s
  | .tickTimer, s => .next (tickTimer s)
  | .setKey index pressed, s => setKey index pressed s
  | .acknowledgeRedraw, s => .next (acknowledgeRedraw s)

/-- The state after an operation: a refused one changes nothing (R121, D24). -/
def stateAfter (s : State) : Outcome → State
  | .next t => t
  | .fault _ => s
  | .refused _ => s

/-- The state after a schedule of operations, in order (R267). -/
def runSchedule (seedInit : Word) : List HostOp → State → State
  | [], s => s
  | op :: ops, s => runSchedule seedInit ops (stateAfter s (perform seedInit op s))

end Sys2Proof.Machine
end

