-- ==== Sys2Proof/Safety.lean ====
section
/-! DEFINITION. What counts as a sound state and a safe step, in the terms the claims use. -/

namespace Sys2Proof.Machine

/-- A latched fault is one the hardware can have raised in this state: its cause still stands, since after it nothing
but `reset` changes `pc` or the stack (spec/60_exceptions.md R281 to R287, R292). -/
def Fault.raisedIn (s : State) : Fault → Prop
  | .stackOverflow => s.sp = 16
  | .stackUnderflow => s.sp = 0
  | .fetchOutOfRange pc0 => pc0 = s.pc ∧ 4094 < pc0.toNat
  | .dataAddressOutOfRange a => 4095 < a ∧ a ≤ 65550
  | .keyIndexOutOfRange v => 15 < v.toNat

/-- The invariant of the core: memory in canonical form, at most 16 return addresses (spec/10_state.md R30, R39), each of
them the address after some CALL (R25), `pc` never beyond the highest target of BNNN (R25), and a latched fault that
can have been raised here. -/
structure State.Inv (s : State) : Prop where
  memoryCanonical : s.memory.wf = true
  stackBounded : s.sp ≤ 16
  returnAddresses : ∀ v ∈ s.stack, 2 ≤ v.toNat ∧ v.toNat ≤ 4096
  pcBounded : s.pc.toNat ≤ 0x10FE
  latchSound : ∀ f, s.halted = some f → f.raisedIn s

/-- The sprite of a DRW has a 1 bit that lands on the cell of column cx and row cy: the bit `7 - c` of sprite row r, with
cx = x0 + c and cy = y0 + r, where only the start coordinate wraps (spec/44_display.md R202, R208). -/
def State.spriteLights (s : State) (x y : Reg) (n : Nibble) (cx : Fin 64) (cy : Fin 32) : Bool :=
  decide ((s.reg x).toNat % 64 ≤ cx ∧ cx.val < (s.reg x).toNat % 64 + 8) &&
    decide ((s.reg y).toNat % 32 ≤ cy ∧ cy.val < (s.reg y).toNat % 32 + n.toNat) &&
    (s.memory.read (s.I.toNat + (cy - (s.reg y).toNat % 32))).getLsbD (7 - (cx - (s.reg x).toNat % 64))

/-- How many rows of an N-row sprite are on screen, and so read (spec/44_display.md R202, R207). -/
def State.rowsOnScreen (s : State) (y : Reg) (n : Nibble) : Nat := min n.toNat (32 - (s.reg y).toNat % 32)

/-- The core executes instructions: no fatal fault is latched (spec/10_state.md R38). -/
def State.running (s : State) : Prop := s.halted = none

/-- A step whose outcome is `Ok`. A claim that a program runs correctly takes every step to be safe
(spec/93_implementation_defined.md U4). -/
def State.stepsSafely (s : State) : Prop := stepReport s = .ok

end Sys2Proof.Machine
end

