-- ==== Sys2Proof/Certificates/Slice0/Obligations.lean ====
section
/-! DEFINITION. The statements about the model, from the numbered rules of spec/. A frame is written as an equation of
states: `{ t with V := s.V } = s` says that t differs from s in the registers alone. Where a statement rests on one of
the spec's own decisions (D<n> of spec/92_eei_decisions.md) its docstring names the decision and the log entry. -/

open Sys2Proof Sys2Proof.Machine

/-! ## Encoding and decoding -/

/-- Decoding the word of an instruction, and its bytes in front of any others, gives that instruction back, for all 34
and every value of every field (spec/30_encoding.md R92 to R96, R105). The patterns are decision D1 (log 12). -/
def Obligations.DecodeOfEncodeIsTheInstruction : Prop :=
  ∀ (i : Instr) (rest : List Byte),
    i.wellFormed = true ∧ decode (encode i) = .ok i ∧ decodeBytes (encodeBytes i ++ rest) = .ok (i, rest)

/-- Each word has one meaning: the encoding of what a word decodes to is that word, the unused field of the shifts
included (spec/30_encoding.md R94, R95, R100). The patterns are decision D1 (log 12). -/
def Obligations.EncodeOfDecodedWordIsTheWord : Prop :=
  ∀ (op : Word) (i : Instr), decode op = .ok i → encode i = op

/-- The decoder agrees with the mask and match table of R96: a word decodes exactly when a row selects it, to the
instruction of that row, no second row selects it (R95), and otherwise it is UnknownOpcode with the raw word (R94,
R99). The table is decision D1 (log 12). -/
def Obligations.WordDecodesExactlyWhenOneRowSelectsIt : Prop :=
  (∀ (op : Word) (i : Instr), decode op = .ok i →
    i.row ∈ opcodeRows ∧ i.row.selects op = true ∧ ∀ r ∈ opcodeRows, r.selects op = true → r = i.row) ∧
  (∀ op : Word, wordWellFormed op = true → ∃ i, decode op = .ok i) ∧
  (∀ op : Word, wordWellFormed op = false → decode op = .error (.unknownOpcode op))

/-- The complete set of undecodable words, as R99 lists it. The patterns are decision D1 (log 12). -/
def Obligations.UndecodableWordsAreTheListedOnes : Prop :=
  ∀ op : Word, decode op = .error (.unknownOpcode op) ↔
    (op.toNat < 0x1000 ∧ op.toNat ≠ 0x00E0 ∧ op.toNat ≠ 0x00EE) ∨
    (op.toNat / 0x1000 = 0x5 ∧ op.toNat % 16 ≠ 0) ∨
    (op.toNat / 0x1000 = 0x8 ∧ op.toNat % 16 ∈ [0x8, 0x9, 0xA, 0xB, 0xC, 0xD, 0xF]) ∨
    (op.toNat / 0x1000 = 0x9 ∧ op.toNat % 16 ≠ 0) ∨
    (op.toNat / 0x1000 = 0xE ∧ op.toNat % 256 ∉ [0x9E, 0xA1]) ∨
    (op.toNat / 0x1000 = 0xF ∧ op.toNat % 256 ∉ [0x07, 0x0A, 0x15, 0x18, 0x1E, 0x29, 0x33, 0x55, 0x65])

/-- A few words written out from the spec decode as it says (spec/95_test_vectors.md T1, T4 to T6, sections 2.1 to 2.8 and
P3): a sanity statement. The patterns of the words the source does not tie down are decision D1 (log 12, PRESUMED). -/
def Obligations.WrittenOutWordsDecode : Prop :=
  decode 0x6AFF#16 = .ok (.ldImm 10 0xFF#8) ∧ decode 0x1230#16 = .ok (.jp 0x230#12) ∧
  decode 0x2300#16 = .ok (.call 0x300#12) ∧ decode 0x00EE#16 = .ok .ret ∧ decode 0x00E0#16 = .ok .cls ∧
  decode 0x8AB7#16 = .ok (.subnReg 10 11) ∧ decode 0xB512#16 = .ok (.jpV0 0x512#12) ∧
  decode 0xC0FF#16 = .ok (.rnd 0 0xFF#8) ∧ decode 0xD125#16 = .ok (.drw 1 2 5#4) ∧
  decode 0xE1A1#16 = .ok (.sknp 1) ∧ decode 0xF507#16 = .ok (.ldVxDt 5) ∧ decode 0xF165#16 = .ok (.ldVxMem 1) ∧
  decode 0x00F1#16 = .error (.unknownOpcode 0x00F1#16) ∧ decode 0x5CD1#16 = .error (.unknownOpcode 0x5CD1#16) ∧
  decode 0x8AB9#16 = .error (.unknownOpcode 0x8AB9#16)

/-! ## The step -/

/-- R125: where the word at `pc` decodes to i, the step is i's effect on the state in which `pc` is advanced by
2, and it reports the fatal fault that effect latched, else Ok. -/
def Obligations.StepRunsTheDecodedInstruction : Prop :=
  ∀ (s : State) (i : Instr), s.halted = none → s.pc.toNat ≤ 4094 →
    decode (s.memory.read s.pc.toNat ++ s.memory.read (s.pc.toNat + 1)) = .ok i →
    step s = exec i { s with pc := s.pc + 2 } ∧
    (∀ t, step s = .next t → t.halted = none → stepReport s = .ok) ∧
    (∀ t f, step s = .next t → t.halted = some f → stepReport s = .fatal f)

/-- R124: a word that does not decode advances `pc` and changes nothing else; the outcome carries the word. -/
def Obligations.UndecodableWordOnlyAdvancesPc : Prop :=
  ∀ (s : State) (e : DecodeError), s.halted = none → s.pc.toNat ≤ 4094 →
    decode (s.memory.read s.pc.toNat ++ s.memory.read (s.pc.toNat + 1)) = .error e →
    step s = .next { s with pc := s.pc + 2 } ∧
    stepReport s = .unknownOpcode (s.memory.read s.pc.toNat ++ s.memory.read (s.pc.toNat + 1))

/-- A step that begins with `pc` > 4094 latches FetchOutOfRange and changes nothing else, `pc` included (R123, R285).
That `pc` is not advanced is decision D11 (log 19), the latch decision D12 (log 1). -/
def Obligations.FetchAbove4094OnlyLatches : Prop :=
  ∀ s : State, s.halted = none → 4094 < s.pc.toNat →
    step s = .next { s with halted := some (.fetchOutOfRange s.pc) } ∧
    stepReport s = .fatal (.fetchOutOfRange s.pc)

/-- A halted core refuses to step, and a schedule goes on from the same state (R121; decision D12, log 2). -/
def Obligations.HaltedCoreRefusesToStep : Prop :=
  ∀ (s : State) (f : Fault), s.halted = some f →
    step s = .refused (.halted f) ∧ stateAfter s (step s) = s ∧ stepReport s = .refused f

/-- R62: the fetched word is big-endian, the byte at the lower address the high byte, at any `pc` up to 4094. -/
def Obligations.FetchIsBigEndian : Prop :=
  ∀ s : State, s.pc.toNat ≤ 4094 →
    ∃ op, fetch s = .ok op ∧
      op.toNat = (s.memory.read s.pc.toNat).toNat * 256 + (s.memory.read (s.pc.toNat + 1)).toNat

/-! ## Control flow -/

/-- RET pops the most recent return address into `pc`; on an empty stack it latches StackUnderflow and changes nothing
else (R32, R140; the empty case is decision D9, log 17). -/
def Obligations.ReturnPopsOrUnderflows : Prop :=
  (∀ (s : State) (v : Word) (rest : List Word), s.stack = v :: rest →
    exec .ret s = .next { s with pc := v, stack := rest }) ∧
  (∀ s : State, s.stack = [] → exec .ret s = .next { s with halted := some .stackUnderflow })

/-- R141: JP NNN is the word 1NNN, sets `pc` to NNN, whatever NNN is, and changes nothing else. -/
def Obligations.JumpSetsPc : Prop :=
  ∀ (nnn : Addr12) (s : State),
    encode (.jp nnn) = 0x1#4 ++ nnn ∧ exec (.jp nnn) s = .next { s with pc := nnn.setWidth 16 }

/-- CALL NNN pushes the address of the next instruction and jumps; with 16 entries it latches StackOverflow and changes
nothing else (R142; that `pc` is not loaded then is decision D31, log 17). -/
def Obligations.CallPushesOrOverflows : Prop :=
  ∀ (nnn : Addr12) (s : State),
    (s.sp < 16 → exec (.call nnn) s = .next { s with pc := nnn.setWidth 16, stack := s.pc :: s.stack }) ∧
    (s.sp = 16 → exec (.call nnn) s = .next { s with halted := some .stackOverflow })

/-- JP V0, NNN sets `pc` to the exact sum of NNN and V0, unreduced, and changes nothing else (R144; the instruction is
decision D3, log 11). -/
def Obligations.JumpWithOffsetAddsV0 : Prop :=
  ∀ (nnn : Addr12) (s : State),
    ∃ t, exec (.jpV0 nnn) s = .next t ∧ t.pc.toNat = nnn.toNat + (s.reg 0).toNat ∧ { t with pc := s.pc } = s

/-- The four skips add 2 to `pc` exactly when their test passes and change nothing else (R145 to R148). -/
def Obligations.SkipsTestRegisters : Prop :=
  ∀ (x y : Reg) (nn : Byte) (s : State),
    exec (.seImm x nn) s = .next { s with pc := if s.reg x = nn then s.pc + 2 else s.pc } ∧
    exec (.sneImm x nn) s = .next { s with pc := if s.reg x = nn then s.pc else s.pc + 2 } ∧
    exec (.seReg x y) s = .next { s with pc := if s.reg x = s.reg y then s.pc + 2 else s.pc } ∧
    exec (.sneReg x y) s = .next { s with pc := if s.reg x = s.reg y then s.pc else s.pc + 2 }

/-- A RET that finds the stack a CALL left goes back to the instruction after that CALL, with the stack from before it
(R140, R142). -/
def Obligations.ReturnGoesBackAfterTheCall : Prop :=
  ∀ (nnn : Addr12) (s t u : State), s.sp < 16 → exec (.call nnn) s = .next t → u.stack = t.stack →
    exec .ret u = .next { u with pc := s.pc, stack := s.stack }

/-! ## Registers and arithmetic -/

/-- R160: LD VX, NN is the word 6XNN, sets V[X] to NN, VF included, and changes nothing else. -/
def Obligations.LoadImmediateSetsTheRegister : Prop :=
  ∀ (x : Reg) (nn : Byte) (s : State),
    encode (.ldImm x nn) = 0x6#4 ++ nibbleOfReg x ++ nn ∧
    ∃ t, exec (.ldImm x nn) s = .next t ∧ t.reg x = nn ∧ (∀ r, r ≠ x → t.reg r = s.reg r) ∧ { t with V := s.V } = s

/-- LD VX, VY copies a register and changes nothing else (R162). -/
def Obligations.CopySetsTheRegister : Prop :=
  ∀ (x y : Reg) (s : State),
    ∃ t, exec (.ldReg x y) s = .next t ∧ t.reg x = s.reg y ∧ (∀ r, r ≠ x → t.reg r = s.reg r) ∧ { t with V := s.V } = s

/-- ADD VX, NN adds mod 256 and writes no flag: every other register, VF among them, is unchanged (R161). -/
def Obligations.AddImmediateWrapsWithoutFlag : Prop :=
  ∀ (x : Reg) (nn : Byte) (s : State),
    ∃ t, exec (.addImm x nn) s = .next t ∧ (t.reg x).toNat = ((s.reg x).toNat + nn.toNat) % 256 ∧
      (∀ r, r ≠ x → t.reg r = s.reg r) ∧ { t with V := s.V } = s

/-- OR, AND and XOR leave their result in V[X] and 0 in VF; with X = F the result is lost; nothing else changes (R163 to
R165; the case X = F is decision D5, log 10). -/
def Obligations.LogicalOperationsZeroVF : Prop :=
  ∀ (x y : Reg) (s : State),
    (∃ t, exec (.orReg x y) s = .next t ∧ t.reg VF = 0 ∧ (x ≠ VF → t.reg x = s.reg x ||| s.reg y) ∧
      (∀ r, r ≠ x → r ≠ VF → t.reg r = s.reg r) ∧ { t with V := s.V } = s) ∧
    (∃ t, exec (.andReg x y) s = .next t ∧ t.reg VF = 0 ∧ (x ≠ VF → t.reg x = s.reg x &&& s.reg y) ∧
      (∀ r, r ≠ x → r ≠ VF → t.reg r = s.reg r) ∧ { t with V := s.V } = s) ∧
    (∃ t, exec (.xorReg x y) s = .next t ∧ t.reg VF = 0 ∧ (x ≠ VF → t.reg x = s.reg x ^^^ s.reg y) ∧
      (∀ r, r ≠ x → r ≠ VF → t.reg r = s.reg r) ∧ { t with V := s.V } = s)

/-- ADD VX, VY leaves the sum mod 256 in V[X] and the carry in VF, both operands read first; with X = F the sum is lost;
nothing else changes (R166; the order is decision D5, log 10). -/
def Obligations.AddRegistersSetsCarry : Prop :=
  ∀ (x y : Reg) (s : State),
    ∃ t, exec (.addReg x y) s = .next t ∧
      (t.reg VF).toNat = (if (s.reg x).toNat + (s.reg y).toNat > 255 then 1 else 0) ∧
      (x ≠ VF → (t.reg x).toNat = ((s.reg x).toNat + (s.reg y).toNat) % 256) ∧
      (∀ r, r ≠ x → r ≠ VF → t.reg r = s.reg r) ∧ { t with V := s.V } = s

/-- SUB and SUBN leave the difference mod 256 in V[X] and the not-borrow in VF, 1 when the operands are equal; with X = F
the difference is lost; nothing else changes (R167, R170; decisions D5 and D33, logs 10 and 29). -/
def Obligations.SubtractionsSetNotBorrow : Prop :=
  ∀ (x y : Reg) (s : State),
    (∃ t, exec (.subReg x y) s = .next t ∧
      (t.reg VF).toNat = (if (s.reg x).toNat ≥ (s.reg y).toNat then 1 else 0) ∧
      (x ≠ VF → ((t.reg x).toNat : Int) = ((s.reg x).toNat - (s.reg y).toNat : Int) % 256) ∧
      (∀ r, r ≠ x → r ≠ VF → t.reg r = s.reg r) ∧ { t with V := s.V } = s) ∧
    (∃ t, exec (.subnReg x y) s = .next t ∧
      (t.reg VF).toNat = (if (s.reg y).toNat ≥ (s.reg x).toNat then 1 else 0) ∧
      (x ≠ VF → ((t.reg x).toNat : Int) = ((s.reg y).toNat - (s.reg x).toNat : Int) % 256) ∧
      (∀ r, r ≠ x → r ≠ VF → t.reg r = s.reg r) ∧ { t with V := s.V } = s)

/-- SHR and SHL shift V[X] in place by one and leave the dropped bit in VF, whatever Y is; with X = F the result is lost;
nothing else changes (R168, R171). That the source is V[X] is the open parameter SHIFT_SOURCE at its default (decision
D4, log 9), the order decision D5 (log 10). -/
def Obligations.ShiftsDropTheirBitIntoVF : Prop :=
  ∀ (x y : Reg) (s : State),
    (∃ t, exec (.shr x y) s = .next t ∧ (t.reg VF).toNat = (s.reg x).toNat % 2 ∧
      (x ≠ VF → (t.reg x).toNat = (s.reg x).toNat / 2) ∧
      (∀ r, r ≠ x → r ≠ VF → t.reg r = s.reg r) ∧ { t with V := s.V } = s) ∧
    (∃ t, exec (.shl x y) s = .next t ∧ (t.reg VF).toNat = (s.reg x).toNat / 128 ∧
      (x ≠ VF → (t.reg x).toNat = (s.reg x).toNat * 2 % 256) ∧
      (∀ r, r ≠ x → r ≠ VF → t.reg r = s.reg r) ∧ { t with V := s.V } = s)

/-! ## Random -/

/-- R191: NextRandom advances the seed to (75 seed + 74) mod 65536, the product exact, and returns the NEW seed; nothing
else changes. -/
def Obligations.NextRandomAdvancesAndReturnsTheSeed : Prop :=
  ∀ s : State,
    (nextRandom s).1.toNat = (75 * s.seed.toNat + 74) % 65536 ∧ (nextRandom s).2 = { s with seed := (nextRandom s).1 }

/-- RND VX, NN draws exactly once, even with NN = 0, puts the low byte of the new seed under the mask into V[X] and
changes nothing else (R193). -/
def Obligations.RandomDrawsOnceAndMasks : Prop :=
  ∀ (x : Reg) (nn : Byte) (s : State),
    ∃ t, exec (.rnd x nn) s = .next t ∧ t.seed.toNat = (75 * s.seed.toNat + 74) % 65536 ∧
      t.reg x = t.seed.setWidth 8 &&& nn ∧ (∀ r, r ≠ x → t.reg r = s.reg r) ∧
      { t with V := s.V, seed := s.seed } = s

/-- No other instruction changes the seed, and no host operation but `step` and `reset` does (R192 (c)). -/
def Obligations.OnlyRandomChangesTheSeed : Prop :=
  (∀ (i : Instr) (s t : State), (∀ x nn, i ≠ .rnd x nn) → exec i s = .next t → t.seed = s.seed) ∧
  (∀ (seedInit : Word) (op : HostOp) (s : State), op ≠ .step → op ≠ .reset →
    (stateAfter s (perform seedInit op s)).seed = s.seed)

/-! ## Display -/

/-- CLS makes every cell false and sets `redraw_pending`; VF and everything else is unchanged (R200). -/
def Obligations.ClearScreenBlanksEveryCell : Prop :=
  ∀ s : State,
    ∃ t, exec .cls s = .next t ∧ (∀ cx cy, t.cell cx cy = false) ∧ t.redrawPending = true ∧
      { t with display := s.display, redrawPending := s.redrawPending } = s

/-- DRW, where every row on screen can be read: each cell is XORed with the sprite's bit on it (only the start wraps),
VF is 1 exactly when a 1 bit met a true cell, `redraw_pending` is set exactly when N ≥ 1, and nothing else changes
(R201 to R208). With N = 0 no row is read, so `I` may be anything (R205). That clipped rows are not read and the N = 0
case are decision D19 (log 20), that the coordinates are read before VF is written decision D6 (log 20). -/
def Obligations.DrawXorsTheSpriteCellByCell : Prop :=
  ∀ (x y : Reg) (n : Nibble) (s : State), (n = 0 ∨ s.I.toNat + s.rowsOnScreen y n ≤ 4096) →
    ∃ t, exec (.drw x y n) s = .next t ∧
      (∀ cx cy, t.cell cx cy = (s.cell cx cy ^^ s.spriteLights x y n cx cy)) ∧
      (t.reg VF = 1 ↔ ∃ cx cy, s.spriteLights x y n cx cy = true ∧ s.cell cx cy = true) ∧
      (t.reg VF = 0 ∨ t.reg VF = 1) ∧ (∀ r, r ≠ VF → t.reg r = s.reg r) ∧
      t.redrawPending = (s.redrawPending || decide (n ≠ 0)) ∧
      { t with V := s.V, display := s.display, redrawPending := s.redrawPending } = s

/-- The same sprite drawn twice at the same place restores every cell; and where the first draw met no true cell, the
second reports a collision exactly when the sprite has a 1 bit on screen (R203; conflict C3, log 20). With X or Y = F the
flag of the first draw would be a coordinate of the second. -/
def Obligations.DrawingTwiceRestoresTheDisplay : Prop :=
  ∀ (x y : Reg) (n : Nibble) (s : State), x ≠ VF → y ≠ VF → (n = 0 ∨ s.I.toNat + s.rowsOnScreen y n ≤ 4096) →
    ∃ t u, exec (.drw x y n) s = .next t ∧ exec (.drw x y n) t = .next u ∧
      (∀ cx cy, u.cell cx cy = s.cell cx cy) ∧
      ((∀ cx cy, s.spriteLights x y n cx cy = true → s.cell cx cy = false) →
        t.reg VF = 0 ∧ (u.reg VF = 1 ↔ ∃ cx cy, s.spriteLights x y n cx cy = true))

/-- DRW, where a row on screen has no address: it latches DataAddressOutOfRange of the first such address, and changes
nothing else but VF and cells under the sprite. VF holds its old value or a flag, and a cell of a readable row on which
the sprite has a 0 bit is unchanged (R207, R286, R290; decisions D7 and D34, logs 15 and 4). -/
def Obligations.DrawBeyondMemoryLatches : Prop :=
  ∀ (x y : Reg) (n : Nibble) (s : State), n ≠ 0 → 4096 < s.I.toNat + s.rowsOnScreen y n →
    ∃ t, exec (.drw x y n) s = .next t ∧
      t.halted = some (.dataAddressOutOfRange (max s.I.toNat 4096)) ∧
      (t.reg VF = s.reg VF ∨ t.reg VF = 0 ∨ t.reg VF = 1) ∧ (∀ r, r ≠ VF → t.reg r = s.reg r) ∧
      (∀ (cx : Fin 64) (cy : Fin 32),
        (cx.val < (s.reg x).toNat % 64 ∨ (s.reg x).toNat % 64 + 8 ≤ cx.val ∨
          cy.val < (s.reg y).toNat % 32 ∨ (s.reg y).toNat % 32 + n.toNat ≤ cy.val ∨
          (s.I.toNat + (cy.val - (s.reg y).toNat % 32) < 4096 ∧ s.spriteLights x y n cx cy = false)) →
        t.cell cx cy = s.cell cx cy) ∧
      { t with V := s.V, display := s.display, halted := s.halted, freeCount := s.freeCount } = s

/-! ## Input -/

/-- SKP and SKNP test the key that the whole value of V[X] names and change nothing but `pc` (R220, R221); a value above
15 latches KeyIndexOutOfRange and changes nothing else (R222; decision D8, log 16). -/
def Obligations.KeySkipsTestTheNamedKey : Prop :=
  ∀ (x : Reg) (s : State),
    (∀ k : Key, (s.reg x).toNat = k.val →
      exec (.skp x) s = .next { s with pc := if s.key k = true then s.pc + 2 else s.pc } ∧
      exec (.sknp x) s = .next { s with pc := if s.key k = true then s.pc else s.pc + 2 }) ∧
    (15 < (s.reg x).toNat →
      exec (.skp x) s = .next { s with halted := some (.keyIndexOutOfRange (s.reg x)) } ∧
      exec (.sknp x) s = .next { s with halted := some (.keyIndexOutOfRange (s.reg x)) })

/-- LD VX, K with a key pressed: the lowest pressed index goes to V[X] and the latch, and nothing else changes; with none
pressed `pc` goes back by 2 and nothing else changes, the latch included (R223; the latch then is decision D20, log
21). -/
def Obligations.KeyWaitTakesTheLowestPressedKey : Prop :=
  ∀ (x : Reg) (s : State),
    (∀ k : Key, s.key k = true → (∀ j, j < k → s.key j = false) →
      ∃ t, exec (.ldVxK x) s = .next t ∧ (t.reg x).toNat = k.val ∧ (∀ r, r ≠ x → t.reg r = s.reg r) ∧
        t.keyWaitLatch = some k ∧ { t with V := s.V, keyWaitLatch := s.keyWaitLatch } = s) ∧
    ((∀ k, s.key k = false) → exec (.ldVxK x) s = .next { s with pc := s.pc - 2 })

/-- A whole step at a key wait with no key pressed is Ok and changes nothing: the wait is an enabled step, not a stop
(R130, R224). -/
def Obligations.KeyWaitWithoutAKeyChangesNothing : Prop :=
  ∀ (x : Reg) (s : State), s.halted = none → s.pc.toNat ≤ 4094 →
    decode (s.memory.read s.pc.toNat ++ s.memory.read (s.pc.toNat + 1)) = .ok (.ldVxK x) →
    (∀ k, s.key k = false) → step s = .next s ∧ stepReport s = .ok

/-! ## Timers -/

/-- The three timer instructions move a byte between V[X] and a timer and change nothing else (R230 to R232). -/
def Obligations.TimerInstructionsMoveAByte : Prop :=
  ∀ (x : Reg) (s : State),
    (∃ t, exec (.ldVxDt x) s = .next t ∧ t.reg x = s.DT ∧ (∀ r, r ≠ x → t.reg r = s.reg r) ∧ { t with V := s.V } = s) ∧
    exec (.ldDtVx x) s = .next { s with DT := s.reg x } ∧
    exec (.ldStVx x) s = .next { s with ST := s.reg x }

/-- R128: a step decrements no timer (it changes one only by executing FX15 or FX18, to V[X]), changes no key and does
not clear `redraw_pending`. -/
def Obligations.StepLeavesTimersKeysAndRedraw : Prop :=
  ∀ s t : State, step s = .next t →
    t.keypad = s.keypad ∧ (s.redrawPending = true → t.redrawPending = true) ∧
    (t.DT = s.DT ∨ ∃ op x, fetch s = .ok op ∧ decode op = .ok (.ldDtVx x) ∧ t.DT = s.reg x) ∧
    (t.ST = s.ST ∨ ∃ op x, fetch s = .ok op ∧ decode op = .ok (.ldStVx x) ∧ t.ST = s.reg x)

/-- k ticks take both timers down by k, never below zero, each on its own, and change nothing else, halted or not (R28,
R233, R261; that a tick works while halted is decision D12, log 1). -/
def Obligations.TicksCountDownAndSaturate : Prop :=
  ∀ (seedInit : Word) (k : Nat) (s : State),
    (runSchedule seedInit (List.replicate k .tickTimer) s).DT.toNat = s.DT.toNat - k ∧
    (runSchedule seedInit (List.replicate k .tickTimer) s).ST.toNat = s.ST.toNat - k ∧
    { runSchedule seedInit (List.replicate k .tickTimer) s with DT := s.DT, ST := s.ST } = s

/-! ## Index register and memory -/

/-- R242: LD F, VX is the word FX29, sets `I` to 5 times the low nibble of V[X], and changes nothing else. -/
def Obligations.GlyphAddressFromTheLowNibble : Prop :=
  ∀ (x : Reg) (s : State),
    encode (.ldF x) = 0xF#4 ++ nibbleOfReg x ++ 0x29#8 ∧
    ∃ t, exec (.ldF x) s = .next t ∧ t.I.toNat = (s.reg x).toNat % 16 * 5 ∧ { t with I := s.I } = s

/-- LD I, NNN sets `I`; ADD I, VX adds mod 65536 and writes no flag; nothing else changes (R240, R241; decisions D2 and
D22, logs 11 and 23). -/
def Obligations.SettingAndAddingToI : Prop :=
  (∀ (nnn : Addr12) (s : State), exec (.ldI nnn) s = .next { s with I := nnn.setWidth 16 }) ∧
  (∀ (x : Reg) (s : State),
    ∃ t, exec (.addIVx x) s = .next t ∧ t.I.toNat = (s.I.toNat + (s.reg x).toNat) % 65536 ∧ { t with I := s.I } = s)

/-- LD B, VX with I + 2 ≤ 4095: the decimal digits of V[X] at `I`, `I` + 1, `I` + 2, every other byte as before, and
nothing else changes (R243). -/
def Obligations.DecimalDigitsAreStored : Prop :=
  ∀ (x : Reg) (s : State), s.I.toNat + 2 ≤ 4095 →
    ∃ t, exec (.ldB x) s = .next t ∧
      (t.memory.read s.I.toNat).toNat = (s.reg x).toNat / 100 ∧
      (t.memory.read (s.I.toNat + 1)).toNat = (s.reg x).toNat / 10 % 10 ∧
      (t.memory.read (s.I.toNat + 2)).toNat = (s.reg x).toNat % 10 ∧
      (∀ a, a < s.I.toNat ∨ s.I.toNat + 2 < a → t.memory.read a = s.memory.read a) ∧
      { t with memory := s.memory } = s

/-- LD [I], VX with I + X ≤ 4095: V[k] at `I` + k for k = 0..X, every other byte as before, `I` advanced past the written
range, and nothing else changes (R245). -/
def Obligations.BulkStoreWritesV0ThroughVX : Prop :=
  ∀ (x : Reg) (s : State), s.I.toNat + x.val ≤ 4095 →
    ∃ t, exec (.ldMemVx x) s = .next t ∧
      (∀ r, r ≤ x → t.memory.read (s.I.toNat + r.val) = s.reg r) ∧
      (∀ a, a < s.I.toNat ∨ s.I.toNat + x.val < a → t.memory.read a = s.memory.read a) ∧
      t.I.toNat = s.I.toNat + x.val + 1 ∧ { t with memory := s.memory, I := s.I } = s

/-- LD VX, [I] with I + X ≤ 4095: V[k] from `I` + k for k = 0..X, the other registers as before, `I` advanced, and nothing
else changes, memory included (R246; that `I` advances is decision D21, log 22). -/
def Obligations.BulkLoadReadsV0ThroughVX : Prop :=
  ∀ (x : Reg) (s : State), s.I.toNat + x.val ≤ 4095 →
    ∃ t, exec (.ldVxMem x) s = .next t ∧
      (∀ r, r ≤ x → t.reg r = s.memory.read (s.I.toNat + r.val)) ∧ (∀ r, x < r → t.reg r = s.reg r) ∧
      t.I.toNat = s.I.toNat + x.val + 1 ∧ { t with V := s.V, I := s.I } = s

/-- A store whose bytes do not all have an address latches DataAddressOutOfRange of the first that has none, max(I,
4096); each byte of memory holds its old value or, inside the range it was to write, the value it would have written;
nothing else changes, `I` included (R243 to R245, R286, R290; decisions D7 and D34, logs 15 and 4). -/
def Obligations.StoresBeyondMemoryLatch : Prop :=
  ∀ (x : Reg) (s : State),
    (4095 < s.I.toNat + 2 →
      ∃ t, exec (.ldB x) s = .next t ∧ t.halted = some (.dataAddressOutOfRange (max s.I.toNat 4096)) ∧
        (∀ a, t.memory.read a = s.memory.read a ∨
          (s.I.toNat ≤ a ∧ a ≤ 4095 ∧ t.memory.read a = (decimalDigits (s.reg x)).getD (a - s.I.toNat) 0)) ∧
        { t with memory := s.memory, halted := s.halted, freeCount := s.freeCount } = s) ∧
    (4095 < s.I.toNat + x.val →
      ∃ t, exec (.ldMemVx x) s = .next t ∧ t.halted = some (.dataAddressOutOfRange (max s.I.toNat 4096)) ∧
        (∀ a, t.memory.read a = s.memory.read a ∨
          (a ≤ 4095 ∧ ∃ r : Reg, r ≤ x ∧ a = s.I.toNat + r.val ∧ t.memory.read a = s.reg r)) ∧
        { t with memory := s.memory, halted := s.halted, freeCount := s.freeCount } = s)

/-- A bulk load whose bytes do not all have an address latches DataAddressOutOfRange of the first that has none; a
register up to VX whose byte has an address holds its old value or that byte, a register above VX is unchanged, and
nothing else changes, `I` included (R244, R246, R286, R290; decisions D7 and D34, logs 15 and 4). -/
def Obligations.BulkLoadBeyondMemoryLatches : Prop :=
  ∀ (x : Reg) (s : State), 4095 < s.I.toNat + x.val →
    ∃ t, exec (.ldVxMem x) s = .next t ∧ t.halted = some (.dataAddressOutOfRange (max s.I.toNat 4096)) ∧
      (∀ r, r ≤ x → s.I.toNat + r.val ≤ 4095 →
        t.reg r = s.reg r ∨ t.reg r = s.memory.read (s.I.toNat + r.val)) ∧
      (∀ r, x < r → t.reg r = s.reg r) ∧
      { t with V := s.V, halted := s.halted, freeCount := s.freeCount } = s

/-- A bulk load from where a bulk store wrote brings back V0..VX and leaves the other registers and `I` as they are after
the store ("bulk load the inverse", R246; decision D21, log 22). -/
def Obligations.BulkLoadInvertsBulkStore : Prop :=
  ∀ (x : Reg) (s t : State) (regs : Vector Byte 16), s.I.toNat + x.val ≤ 4095 → exec (.ldMemVx x) s = .next t →
    ∃ u, exec (.ldVxMem x) { t with I := s.I, V := regs } = .next u ∧
      (∀ r, r ≤ x → u.reg r = s.reg r) ∧ (∀ r, x < r → u.reg r = regs.get r) ∧ u.I = t.I ∧ u.memory = t.memory

/-- No instruction but LD B, VX and LD [I], VX changes memory (R67). -/
def Obligations.OnlyTheStoresChangeMemory : Prop :=
  ∀ (i : Instr) (s t : State), (∀ x, i ≠ .ldB x) → (∀ x, i ≠ .ldMemVx x) → exec i s = .next t → t.memory = s.memory

/-- A store into the instruction stream is seen by the next fetch, whether it covers both bytes at `pc`, one of them or
none: each fetched byte is the stored one where LD [I], VX or LD B, VX stored to its address and the old one elsewhere
(R72, R331). Digit k of LD B is V[X] / 10^(2 - k) mod 10. -/
def Obligations.StoredWordIsFetchedNext : Prop :=
  ∀ (x : Reg) (s : State), s.pc.toNat ≤ 4094 →
    (s.I.toNat + x.val ≤ 4095 →
      ∃ t hi lo, exec (.ldMemVx x) s = .next t ∧ fetch t = .ok (hi ++ lo) ∧
        (∀ r, r ≤ x → s.pc.toNat = s.I.toNat + r.val → hi = s.reg r) ∧
        (∀ r, r ≤ x → s.pc.toNat + 1 = s.I.toNat + r.val → lo = s.reg r) ∧
        (s.pc.toNat < s.I.toNat ∨ s.I.toNat + x.val < s.pc.toNat → hi = s.memory.read s.pc.toNat) ∧
        (s.pc.toNat + 1 < s.I.toNat ∨ s.I.toNat + x.val < s.pc.toNat + 1 → lo = s.memory.read (s.pc.toNat + 1))) ∧
    (s.I.toNat + 2 ≤ 4095 →
      ∃ t hi lo, exec (.ldB x) s = .next t ∧ fetch t = .ok (hi ++ lo) ∧
        (∀ k, k < 3 → s.pc.toNat = s.I.toNat + k → hi.toNat = (s.reg x).toNat / 10 ^ (2 - k) % 10) ∧
        (∀ k, k < 3 → s.pc.toNat + 1 = s.I.toNat + k → lo.toNat = (s.reg x).toNat / 10 ^ (2 - k) % 10) ∧
        (s.pc.toNat < s.I.toNat ∨ s.I.toNat + 2 < s.pc.toNat → hi = s.memory.read s.pc.toNat) ∧
        (s.pc.toNat + 1 < s.I.toNat ∨ s.I.toNat + 2 < s.pc.toNat + 1 → lo = s.memory.read (s.pc.toNat + 1)))

/-- Equal memories are equal data: two memories in canonical form that read alike at every address are the same list
(the model's own representation, log 7). -/
def Obligations.CanonicalMemoriesThatReadAlikeAreEqual : Prop :=
  ∀ m k : Memory, m.wf = true → k.wf = true → (∀ a, m.read a = k.read a) → m = k

/-! ## Faults -/

/-- No instruction stops the machine: each ends in a next state, its own effect or the entry of its fault; and a step
ends in a next state unless a fault is latched (R126, R290; the outcomes of a fault are log 1). -/
def Obligations.NothingStopsButALatchedFault : Prop :=
  (∀ (i : Instr) (s : State), ∃ t, exec i s = .next t) ∧
  (∀ s : State, (∃ t, step s = .next t) ∨ ∃ f, s.halted = some f ∧ step s = .refused (.halted f))

/-- Which instruction raises which fault, and under which condition on the state before it (R281, R288; the conditions the source does not give are decisions D7
to D9, logs 15 to 17). -/
def Obligations.OnlyTheNamedInstructionsRaise : Prop :=
  ∀ (i : Instr) (s t : State) (f : Fault), s.halted = none → exec i s = .next t → t.halted = some f →
    match f with
    | .stackOverflow => 16 ≤ s.sp ∧ ∃ nnn, i = .call nnn
    | .stackUnderflow => s.sp = 0 ∧ i = .ret
    | .fetchOutOfRange _ => False
    | .dataAddressOutOfRange a => a = max s.I.toNat 4096 ∧
        ((∃ x y n, i = .drw x y n ∧ n ≠ 0 ∧ 4096 < s.I.toNat + s.rowsOnScreen y n) ∨
          (∃ x, i = .ldB x ∧ 4095 < s.I.toNat + 2) ∨ (∃ x, i = .ldMemVx x ∧ 4095 < s.I.toNat + x.val) ∨
          (∃ x, i = .ldVxMem x ∧ 4095 < s.I.toNat + x.val))
    | .keyIndexOutOfRange v => 15 < v.toNat ∧ ∃ x, v = s.reg x ∧ (i = .skp x ∨ i = .sknp x)

/-- Faults are precise: an instruction that raises one changes nothing but the latch, and after DataAddressOutOfRange the
elements it was in the middle of writing, which R286 names: for LD B and LD [I] the bytes `I`..4095, for LD VX, [I] the
registers V0..VX, for DRW the cells and VF (R286, R290; decisions D12 and D34, logs 1 and 4). -/
def Obligations.FaultingInstructionChangesNothingElse : Prop :=
  ∀ (i : Instr) (s t : State) (f : Fault), s.halted = none → exec i s = .next t → t.halted = some f →
    ((∀ a, f ≠ .dataAddressOutOfRange a) → t = { s with halted := some f }) ∧
    (∀ x, i = .ldB x ∨ i = .ldMemVx x →
      (∀ a, a < s.I.toNat ∨ 4095 < a → t.memory.read a = s.memory.read a) ∧
      { t with memory := s.memory, halted := none, freeCount := s.freeCount } = s) ∧
    (∀ x, i = .ldVxMem x →
      (∀ r, x < r → t.reg r = s.reg r) ∧ { t with V := s.V, halted := none, freeCount := s.freeCount } = s) ∧
    (∀ x y n, i = .drw x y n →
      (∀ r, r ≠ VF → t.reg r = s.reg r) ∧
      { t with V := s.V, display := s.display, halted := none, freeCount := s.freeCount } = s) ∧
    { t with memory := s.memory, V := s.V, display := s.display, halted := none, freeCount := s.freeCount } = s

/-- A fatal fault latches: after it, whatever the host does short of `reset`, the same fault stays latched, no step
executes, and no register, `pc`, `I`, stack, cell, key latch or seed changes (R38, R121, R292; decision D12, log 1). -/
def Obligations.FatalFaultLatchesUntilReset : Prop :=
  ∀ (seedInit : Word) (ops : List HostOp) (s : State) (f : Fault), s.halted = some f → HostOp.reset ∉ ops →
    (runSchedule seedInit ops s).halted = some f ∧
    step (runSchedule seedInit ops s) = .refused (.halted f) ∧
    { runSchedule seedInit ops s with
      memory := s.memory, DT := s.DT, ST := s.ST, keypad := s.keypad, redrawPending := s.redrawPending } = s

/-! ## The invariant -/

/-- The invariant holds after reset and after construction with any seed. -/
def Obligations.InvariantHoldsAtReset : Prop :=
  State.reset.Inv ∧ ∀ seedInit : Word, (construct seedInit).Inv

/-- Every step keeps the invariant: canonical memory, at most 16 return addresses each from 2 to 4096, `pc` at most 0x10FE
so that it never wraps, and a latched fault that can have been raised (R25, R30, R39). -/
def Obligations.StepKeepsTheInvariant : Prop :=
  ∀ s t : State, s.Inv → step s = .next t → t.Inv

/-- Every schedule of host operations keeps the invariant, `reset`, loads, ticks, keys and steps in any order (R267). -/
def Obligations.HostSchedulesKeepTheInvariant : Prop :=
  ∀ (seedInit : Word) (ops : List HostOp) (s : State), s.Inv → (runSchedule seedInit ops s).Inv

/-! ## Reset, loading and the rest of the host's interface -/

/-- What `reset` leaves, from any state: the values of R40, the font in memory and zero everywhere else. The values are
decisions D13 to D16 (logs 6, 7, 13, 14); `freeCount` is the model's own and goes on (log 5). -/
def Obligations.ResetRestoresTheInitialState : Prop :=
  ∀ (seedInit : Word) (s : State),
    (hostReset seedInit s).pc = 512 ∧ (∀ r, (hostReset seedInit s).reg r = 0) ∧ (hostReset seedInit s).I = 0 ∧
    (hostReset seedInit s).DT = 0 ∧ (hostReset seedInit s).ST = 0 ∧ (hostReset seedInit s).stack = [] ∧
    (∀ k, (hostReset seedInit s).key k = false) ∧ (∀ cx cy, (hostReset seedInit s).cell cx cy = false) ∧
    (hostReset seedInit s).redrawPending = false ∧ (hostReset seedInit s).keyWaitLatch = none ∧
    (hostReset seedInit s).seed = seedInit ∧ (hostReset seedInit s).halted = none ∧
    (∀ a, (hostReset seedInit s).memory.read a = if a < 80 then params.font.getD a 0 else 0) ∧
    hostReset 888 { s with freeCount := 0 } = State.reset

/-- Construction leaves every byte of memory zero, and is `reset` once the font is loaded (R320, R324; decisions D13 to
D16 and D29, logs 6, 7, 13, 14, 28). -/
def Obligations.ConstructionThenLoadFontIsReset : Prop :=
  ∀ (seedInit : Word) (s : State),
    (∀ a, (construct seedInit).memory.read a = 0) ∧
    loadFont (construct seedInit) = { hostReset seedInit s with freeCount := 0 }

/-- `load_font` copies the 80 bytes of FONT to addresses 0..79, from any state, and changes nothing else; the first
five are glyph 0 (R322; bytes 5..79 of FONT are decision D17, log 8). -/
def Obligations.LoadFontCopiesTheGlyphTable : Prop :=
  params.font.length = 80 ∧ params.font.take 5 = [0xF0#8, 0x90#8, 0x90#8, 0x90#8, 0xF0#8] ∧
  ∀ s : State,
    (∀ a, (loadFont s).memory.read a = if a < 80 then params.font.getD a 0 else s.memory.read a) ∧
    { loadFont s with memory := s.memory } = s

/-- `load_program` copies an image of at most 3584 bytes to 512 verbatim and changes nothing else, `pc` included; a longer
one is refused (R323; decision D24, log 24). -/
def Obligations.LoadProgramCopiesVerbatim : Prop :=
  ∀ (image : List Byte) (s : State),
    (image.length ≤ 3584 →
      ∃ t, loadProgram image s = .next t ∧
        (∀ k, k < image.length → t.memory.read (512 + k) = image.getD k 0) ∧
        (∀ a, a < 512 ∨ 512 + image.length ≤ a → t.memory.read a = s.memory.read a) ∧
        { t with memory := s.memory } = s) ∧
    (3584 < image.length → loadProgram image s = .refused (.programTooLong image.length))

/-- `set_key` changes one key and nothing else, and an index above 15 is refused (R262; decision D24, log 24); the
acknowledge clears `redraw_pending` and changes nothing else (R264). -/
def Obligations.SetKeyAndAcknowledge : Prop :=
  ∀ (pressed : Bool) (s : State),
    (∀ k : Key, ∃ t, setKey k.val pressed s = .next t ∧ t.key k = pressed ∧ (∀ j, j ≠ k → t.key j = s.key j) ∧
      { t with keypad := s.keypad } = s) ∧
    (∀ index, 15 < index → setKey index pressed s = .refused (.keyIndexOutsideDomain index)) ∧
    acknowledgeRedraw s = { s with redrawPending := false }

/-- The host reads the cell of column x and row y at index x + 64 y (R34, R263). -/
def Obligations.DisplayIsReadRowMajor : Prop :=
  ∀ (s : State) (cx : Fin 64) (cy : Fin 32) (index : Fin 2048), index.val = cx.val + 64 * cy.val →
    readDisplay s index = s.cell cx cy
end

