-- ==== Sys2Proof/Laws/Decode.lean ====
section
/-! SUPPORT. The fields of the words of the layouts of R93, and the bytes of a word. -/

namespace Sys2Proof

@[simp] theorem regOfNibble_nibbleOfReg (r : Reg) : regOfNibble (nibbleOfReg r) = r := rfl

@[simp] theorem nibbleOfReg_regOfNibble (n : Nibble) : nibbleOfReg (regOfNibble n) = n := rfl

/-! ## The bits of each layout -/

theorem getLsbD_encodeNNN (n1 : Nibble) (nnn : Addr12) (i : Nat) :
    (encodeNNN n1 nnn).getLsbD i = if i < 12 then nnn.getLsbD i else n1.getLsbD (i - 12) :=
  BitVec.getLsbD_append

theorem getLsbD_encodeXNN (n1 : Nibble) (x : Reg) (nn : Byte) (i : Nat) :
    (encodeXNN n1 x nn).getLsbD i =
      if i < 8 then nn.getLsbD i
      else if i - 8 < 4 then (nibbleOfReg x).getLsbD (i - 8) else n1.getLsbD (i - 8 - 4) := by
  refine BitVec.getLsbD_append.trans ?_
  rw [BitVec.getLsbD_append]

theorem getLsbD_encodeXYN (n1 : Nibble) (x y : Reg) (n4 : Nibble) (i : Nat) :
    (encodeXYN n1 x y n4).getLsbD i =
      if i < 4 then n4.getLsbD i
      else if i - 4 < 4 then (nibbleOfReg y).getLsbD (i - 4)
      else if i - 4 - 4 < 4 then (nibbleOfReg x).getLsbD (i - 4 - 4) else n1.getLsbD (i - 4 - 4 - 4) := by
  refine BitVec.getLsbD_append.trans ?_
  rw [BitVec.getLsbD_append, BitVec.getLsbD_append]

theorem getLsbD_wordOfBytes (hi lo : Byte) (i : Nat) :
    (wordOfBytes hi lo).getLsbD i = if i < 8 then lo.getLsbD i else hi.getLsbD (i - 8) :=
  BitVec.getLsbD_append

/-! ## The layout NNN -/

@[simp] theorem nibble1_encodeNNN (n1 : Nibble) (nnn : Addr12) : nibble1 (encodeNNN n1 nnn) = n1 := by
  ext i hi; simp [nibble1, getLsbD_encodeNNN, BitVec.getLsbD_eq_getElem hi]

@[simp] theorem fieldNNN_encodeNNN (n1 : Nibble) (nnn : Addr12) : fieldNNN (encodeNNN n1 nnn) = nnn := by
  ext i hi; simp [fieldNNN, getLsbD_encodeNNN, hi]

/-! ## The layout XNN -/

@[simp] theorem nibble1_encodeXNN (n1 : Nibble) (x : Reg) (nn : Byte) : nibble1 (encodeXNN n1 x nn) = n1 := by
  ext i hi
  have h1 : ¬ 12 + i < 8 := by omega
  have h2 : ¬ 12 + i - 8 < 4 := by omega
  have h3 : 12 + i - 8 - 4 = i := by omega
  simp [nibble1, getLsbD_encodeXNN, h1, h2, h3, BitVec.getLsbD_eq_getElem hi]

@[simp] theorem fieldX_encodeXNN (n1 : Nibble) (x : Reg) (nn : Byte) : fieldX (encodeXNN n1 x nn) = x := by
  have : nibble2 (encodeXNN n1 x nn) = nibbleOfReg x := by
    ext i hi; simp [nibble2, getLsbD_encodeXNN, hi]
  rw [fieldX, this, regOfNibble_nibbleOfReg]

@[simp] theorem fieldNN_encodeXNN (n1 : Nibble) (x : Reg) (nn : Byte) : fieldNN (encodeXNN n1 x nn) = nn := by
  ext i hi; simp [fieldNN, getLsbD_encodeXNN, hi]

/-! ## The layouts XY and XYN -/

@[simp] theorem nibble1_encodeXYN (n1 : Nibble) (x y : Reg) (n4 : Nibble) : nibble1 (encodeXYN n1 x y n4) = n1 := by
  ext i hi
  have h1 : ¬ 12 + i < 4 := by omega
  have h2 : ¬ 12 + i - 4 < 4 := by omega
  have h3 : ¬ 12 + i - 4 - 4 < 4 := by omega
  have h4 : 12 + i - 4 - 4 - 4 = i := by omega
  simp [nibble1, getLsbD_encodeXYN, h1, h2, h3, h4, BitVec.getLsbD_eq_getElem hi]

@[simp] theorem fieldX_encodeXYN (n1 : Nibble) (x y : Reg) (n4 : Nibble) : fieldX (encodeXYN n1 x y n4) = x := by
  have : nibble2 (encodeXYN n1 x y n4) = nibbleOfReg x := by
    ext i hi
    have h1 : ¬ 8 + i < 4 := by omega
    have h2 : ¬ 8 + i - 4 < 4 := by omega
    have h3 : 8 + i - 4 - 4 = i := by omega
    simp [nibble2, getLsbD_encodeXYN, h1, h2, h3, hi]
  rw [fieldX, this, regOfNibble_nibbleOfReg]

@[simp] theorem fieldY_encodeXYN (n1 : Nibble) (x y : Reg) (n4 : Nibble) : fieldY (encodeXYN n1 x y n4) = y := by
  have : nibble3 (encodeXYN n1 x y n4) = nibbleOfReg y := by
    ext i hi; simp [nibble3, getLsbD_encodeXYN, hi]
  rw [fieldY, this, regOfNibble_nibbleOfReg]

@[simp] theorem nibble4_encodeXYN (n1 : Nibble) (x y : Reg) (n4 : Nibble) : nibble4 (encodeXYN n1 x y n4) = n4 := by
  ext i hi; simp [nibble4, getLsbD_encodeXYN, hi]

/-! ## A word is its fields, and its bytes -/

/-- A word of the layout NNN. -/
theorem encodeNNN_fields (op : Word) : encodeNNN (nibble1 op) (fieldNNN op) = op := by
  apply BitVec.eq_of_getLsbD_eq
  intro i hi
  rw [getLsbD_encodeNNN]
  by_cases h : i < 12
  · simp [h, fieldNNN]
  · have h1 : i - 12 < 4 := by omega
    have h2 : 12 + (i - 12) = i := by omega
    simp [h, nibble1, h1, h2]

/-- A word of the layout XNN. -/
theorem encodeXNN_fields (op : Word) : encodeXNN (nibble1 op) (fieldX op) (fieldNN op) = op := by
  apply BitVec.eq_of_getLsbD_eq
  intro i hi
  rw [getLsbD_encodeXNN, fieldX, nibbleOfReg_regOfNibble]
  by_cases h : i < 8
  · simp [h, fieldNN]
  · by_cases h' : i - 8 < 4
    · have h2 : 8 + (i - 8) = i := by omega
      simp [h, h', nibble2, h2]
    · have h1 : i - 8 - 4 < 4 := by omega
      have h2 : 12 + (i - 8 - 4) = i := by omega
      simp [h, h', nibble1, h1, h2]

/-- A word of the layout XYN. -/
theorem encodeXYN_fields (op : Word) : encodeXYN (nibble1 op) (fieldX op) (fieldY op) (nibble4 op) = op := by
  apply BitVec.eq_of_getLsbD_eq
  intro i hi
  rw [getLsbD_encodeXYN, fieldX, fieldY, nibbleOfReg_regOfNibble, nibbleOfReg_regOfNibble]
  by_cases h : i < 4
  · simp [h, nibble4]
  · by_cases h' : i - 4 < 4
    · have h2 : 4 + (i - 4) = i := by omega
      simp [h, h', nibble3, h2]
    · by_cases h'' : i - 4 - 4 < 4
      · have h2 : 8 + (i - 4 - 4) = i := by omega
        simp [h, h', h'', nibble2, h2]
      · have h1 : i - 4 - 4 - 4 < 4 := by omega
        have h2 : 12 + (i - 4 - 4 - 4) = i := by omega
        simp [h, h', h'', nibble1, h1, h2]

@[simp] theorem wordOfBytes_bytes (op : Word) : wordOfBytes (highByte op) (lowByte op) = op := by
  apply BitVec.eq_of_getLsbD_eq
  intro i hi
  rw [getLsbD_wordOfBytes]
  by_cases h : i < 8
  · simp [h, lowByte]
  · have h1 : i - 8 < 8 := by omega
    have h2 : 8 + (i - 8) = i := by omega
    simp [h, highByte, h1, h2]

/-- Decoding the two bytes of a word is decoding the word. -/
theorem decodeBytes_bytesOfWord (op : Word) (rest : List Byte) :
    decodeBytes (bytesOfWord op ++ rest) =
      match decode op with
      | .ok i => .ok (i, rest)
      | .error e => .error e := by
  cases h : decode op <;> simp [bytesOfWord, decodeBytes, h]

/-! ## Fields as numbers, and the sixteen values of a nibble -/

theorem toNat_nibble1 (op : Word) : (nibble1 op).toNat = op.toNat / 4096 := by
  have := op.isLt
  simp [nibble1, BitVec.extractLsb'_toNat, Nat.shiftRight_eq_div_pow]; omega

theorem toNat_nibble4 (op : Word) : (nibble4 op).toNat = op.toNat % 16 := by
  simp [nibble4, BitVec.extractLsb'_toNat]

theorem toNat_fieldNN (op : Word) : (fieldNN op).toNat = op.toNat % 256 := by
  simp [fieldNN, BitVec.extractLsb'_toNat]

theorem nibble_cases : ∀ n : Nibble, n = 0#4 ∨ n = 1#4 ∨ n = 2#4 ∨ n = 3#4 ∨ n = 4#4 ∨ n = 5#4 ∨ n = 6#4 ∨ n = 7#4 ∨
    n = 8#4 ∨ n = 9#4 ∨ n = 10#4 ∨ n = 11#4 ∨ n = 12#4 ∨ n = 13#4 ∨ n = 14#4 ∨ n = 15#4 := by decide

/-! ## The table: two rows with a word in common are one row (R95) -/

/-- Where two rows' masks meet, their patterns differ, unless they are the same row. -/
theorem opcodeRows_disjoint : ∀ r ∈ opcodeRows, ∀ q ∈ opcodeRows,
    r.pattern &&& (r.mask &&& q.mask) = q.pattern &&& (r.mask &&& q.mask) → r = q := by decide

/-! ## The shapes of a successful decode -/

/-- A decode that fails carries the word (R94). -/
theorem decode_error {op : Word} {e : DecodeError} (h : decode op = .error e) : e = .unknownOpcode op := by
  unfold decode decodeAlu decodeFX at h
  repeat' split at h
  all_goals first
    | exact (Except.error.inj h).symm
    | exact absurd h (by simp)

end Sys2Proof
end

