-- ==== Sys2Proof/Laws/Memory.lean ====
section
/-! SUPPORT. The laws of memory: what a read gives after each memory operation, that each operation keeps the canonical
form, and that two canonical memories that read alike are the same list. -/

namespace Sys2Proof.Machine

theorem params_memSize : params.memSize = 4096 := rfl

/-! ## Reads -/

theorem Memory.read_without_self (m : Memory) (a : Nat) : (m.without a).read a = Memory.background a := by
  induction m with
  | nil => rfl
  | cons c m ih =>
    obtain ⟨b, v⟩ := c
    by_cases h : b = a
    · subst h; simpa [Memory.without] using ih
    · have h' : ¬ a = b := fun e => h e.symm
      simpa [Memory.without, Memory.read, h, h'] using ih

theorem Memory.read_without_other (m : Memory) {a b : Nat} (hne : a ≠ b) : (m.without b).read a = m.read a := by
  induction m with
  | nil => rfl
  | cons c m ih =>
    obtain ⟨d, v⟩ := c
    by_cases h : d = b
    · subst h
      have : Memory.read ((d, v) :: m) a = Memory.read m a := by simp [Memory.read, hne]
      rw [this, ← ih]
      simp [Memory.without]
    · by_cases h' : a = d
      · subst h'; simp [Memory.without, Memory.read, h]
      · simpa [Memory.without, Memory.read, h, h'] using ih

theorem Memory.read_place_other (m : Memory) {a b : Nat} (v : Byte) (hne : a ≠ b) :
    (m.place b v).read a = m.read a := by
  induction m with
  | nil => simp [Memory.place, Memory.read, hne]
  | cons c m ih =>
    obtain ⟨d, w⟩ := c
    by_cases h : b < d
    · simp [Memory.place, Memory.read, h, hne]
    · simp [Memory.place, Memory.read, h, ih]

/-- An insertion is read back where no entry of that address stood before. -/
theorem Memory.read_place_self (m : Memory) (a : Nat) (v : Byte) (hnone : ∀ c ∈ m, c.1 ≠ a) :
    (m.place a v).read a = v := by
  induction m with
  | nil => simp [Memory.place, Memory.read]
  | cons c m ih =>
    obtain ⟨d, w⟩ := c
    by_cases h : a < d
    · simp [Memory.place, Memory.read, h]
    · have hd : ¬ a = d := fun e => hnone (d, w) (by simp) e.symm
      simpa [Memory.place, Memory.read, h, hd] using ih (fun c hc => hnone c (by simp [hc]))

theorem Memory.not_mem_without (m : Memory) (a : Nat) : ∀ c ∈ m.without a, c.1 ≠ a := by
  intro c hc
  simpa using (List.mem_filter.mp hc).2

/-- Reading after writing one byte. -/
theorem Memory.read_write (m : Memory) (a b : Nat) (v : Byte) :
    (m.write b v).read a = if a = b then v else m.read a := by
  unfold Memory.write
  by_cases hab : a = b
  · subst hab
    by_cases hv : v = Memory.background a
    · simp [hv, Memory.read_without_self]
    · simpa [hv] using Memory.read_place_self _ a v (Memory.not_mem_without m a)
  · by_cases hv : v = Memory.background b
    · simp [hv, hab, Memory.read_without_other m hab]
    · simp [hv, hab, Memory.read_place_other _ v hab, Memory.read_without_other m hab]

/-- Reading after writing some bytes at ascending addresses. -/
theorem Memory.read_writeBytes (m : Memory) (b : Nat) (vs : List Byte) (a : Nat) :
    (m.writeBytes b vs).read a = if b ≤ a ∧ a < b + vs.length then vs.getD (a - b) 0 else m.read a := by
  induction vs generalizing m b with
  | nil =>
    have : ¬ (b ≤ a ∧ a < b + ([] : List Byte).length) := by simp
    rw [if_neg this, Memory.writeBytes]
  | cons v vs ih =>
    rw [Memory.writeBytes, ih, Memory.read_write]
    by_cases hab : a = b
    · subst hab
      simp
    · by_cases hin : b + 1 ≤ a ∧ a < b + 1 + vs.length
      · have h2 : b ≤ a ∧ a < b + (v :: vs).length := by simp; omega
        have h3 : a - b = (a - (b + 1)) + 1 := by omega
        rw [if_pos hin, if_pos h2, h3]
        simp
      · have h2 : ¬ (b ≤ a ∧ a < b + (v :: vs).length) := by simp; omega
        simp only [if_neg hin, if_neg h2, if_neg hab]

/-- A byte after a chosen write is the old byte, or the written one where the address exists. -/
theorem Memory.read_writeChosen (pick : Nat → Bool) (m : Memory) (b k : Nat) (vs : List Byte) (a : Nat) :
    (m.writeChosen pick b k vs).read a = m.read a ∨
      (b ≤ a ∧ a < b + vs.length ∧ a < 4096 ∧ (m.writeChosen pick b k vs).read a = vs.getD (a - b) 0) := by
  induction vs generalizing m b k with
  | nil => exact .inl rfl
  | cons v vs ih =>
    rw [Memory.writeChosen]
    have step : ∀ m' : Memory, (m'.writeChosen pick (b + 1) (k + 1) vs).read a = m'.read a ∨
        (b ≤ a ∧ a < b + (v :: vs).length ∧ a < 4096 ∧
          (m'.writeChosen pick (b + 1) (k + 1) vs).read a = (v :: vs).getD (a - b) 0) := by
      intro m'
      rcases ih m' (b + 1) (k + 1) with h | ⟨h1, h2, h3, h4⟩
      · exact .inl h
      · refine .inr ⟨by omega, by simp; omega, h3, ?_⟩
        rw [h4, show a - b = (a - (b + 1)) + 1 by omega]
        simp
    split
    · rename_i hp
      rcases step (m.write b v) with h | h
      · rw [h, Memory.read_write]
        by_cases hab : a = b
        · subst hab
          have : a < 4096 := of_decide_eq_true (Bool.and_eq_true_iff.mp hp).1
          exact .inr ⟨by omega, by simp, this, by simp⟩
        · exact .inl (by simp [hab])
      · exact .inr h
    · exact step m

/-! ## The canonical form -/

theorem Memory.wfFrom_cons {lo a : Nat} {v : Byte} {m : Memory} :
    Memory.wfFrom lo ((a, v) :: m) = true ↔
      lo ≤ a ∧ a < 4096 ∧ v ≠ Memory.background a ∧ Memory.wfFrom (a + 1) m = true := by
  simp only [Memory.wfFrom, Bool.and_eq_true, decide_eq_true_eq, bne_iff_ne, and_assoc]
  exact Iff.rfl

theorem Memory.wfFrom_mono {lo hi : Nat} {m : Memory} (h : lo ≤ hi) (hm : Memory.wfFrom hi m = true) :
    Memory.wfFrom lo m = true := by
  cases m with
  | nil => rfl
  | cons c m =>
    obtain ⟨a, v⟩ := c
    rw [Memory.wfFrom_cons] at hm ⊢
    exact ⟨by omega, hm.2⟩

theorem Memory.wfFrom_without {lo : Nat} {m : Memory} (a : Nat) (hm : Memory.wfFrom lo m = true) :
    Memory.wfFrom lo (m.without a) = true := by
  induction m generalizing lo with
  | nil => rfl
  | cons c m ih =>
    obtain ⟨b, v⟩ := c
    rw [Memory.wfFrom_cons] at hm
    by_cases h : b = a
    · have : Memory.without ((b, v) :: m) a = Memory.without m a := by simp [Memory.without, h]
      rw [this]
      exact Memory.wfFrom_mono (by omega) (ih hm.2.2.2)
    · have : Memory.without ((b, v) :: m) a = (b, v) :: Memory.without m a := by simp [Memory.without, h]
      rw [this, Memory.wfFrom_cons]
      exact ⟨hm.1, hm.2.1, hm.2.2.1, ih hm.2.2.2⟩

theorem Memory.wfFrom_place {lo : Nat} {m : Memory} {a : Nat} {v : Byte} (hm : Memory.wfFrom lo m = true)
    (hlo : lo ≤ a) (ha : a < 4096) (hv : v ≠ Memory.background a) (hnone : ∀ c ∈ m, c.1 ≠ a) :
    Memory.wfFrom lo (m.place a v) = true := by
  induction m generalizing lo with
  | nil => exact Memory.wfFrom_cons.mpr ⟨hlo, ha, hv, rfl⟩
  | cons c m ih =>
    obtain ⟨b, w⟩ := c
    have hb := Memory.wfFrom_cons.mp hm
    by_cases h : a < b
    · rw [Memory.place, if_pos h, Memory.wfFrom_cons]
      exact ⟨hlo, ha, hv, Memory.wfFrom_cons.mpr ⟨by omega, hb.2⟩⟩
    · have hne : b ≠ a := hnone (b, w) (by simp)
      rw [Memory.place, if_neg h, Memory.wfFrom_cons]
      exact ⟨hb.1, hb.2.1, hb.2.2.1, ih hb.2.2.2 (by omega) (fun c hc => hnone c (by simp [hc]))⟩

/-- Writing one byte inside memory keeps the canonical form. -/
theorem Memory.wf_write {m : Memory} {a : Nat} {v : Byte} (hm : m.wf = true) (ha : a < 4096) :
    (m.write a v).wf = true := by
  unfold Memory.write
  split
  · exact Memory.wfFrom_without a hm
  · rename_i hv
    exact Memory.wfFrom_place (Memory.wfFrom_without a hm) (Nat.zero_le _) ha hv (Memory.not_mem_without m a)

theorem Memory.wf_writeBytes {m : Memory} {a : Nat} {vs : List Byte} (hm : m.wf = true) (ha : a + vs.length ≤ 4096) :
    (m.writeBytes a vs).wf = true := by
  induction vs generalizing m a with
  | nil => exact hm
  | cons v vs ih =>
    have : a + 1 + vs.length ≤ 4096 := by simp at ha; omega
    exact ih (Memory.wf_write hm (by omega)) this

theorem Memory.wf_writeChosen {pick : Nat → Bool} {m : Memory} {a k : Nat} {vs : List Byte} (hm : m.wf = true) :
    (m.writeChosen pick a k vs).wf = true := by
  induction vs generalizing m a k with
  | nil => exact hm
  | cons v vs ih =>
    rw [Memory.writeChosen]
    split
    · rename_i hp
      have : a < 4096 := of_decide_eq_true (Bool.and_eq_true_iff.mp hp).1
      exact ih (Memory.wf_write hm this)
    · exact ih hm

/-- Below the first address it may list, a canonical memory reads as unlisted. -/
theorem Memory.read_below {lo : Nat} {m : Memory} (hm : Memory.wfFrom lo m = true) {a : Nat} (ha : a < lo) :
    m.read a = Memory.background a := by
  induction m generalizing lo with
  | nil => rfl
  | cons c m ih =>
    obtain ⟨b, v⟩ := c
    rw [Memory.wfFrom_cons] at hm
    have : ¬ a = b := by omega
    rw [Memory.read, if_neg this]
    exact ih hm.2.2.2 (by omega)

end Sys2Proof.Machine
end

