-- ==== Sys2Proof/Laws/State.lean ====
section
/-! SUPPORT. One lemma per field per named update of the state, each true by unfolding, and the reading of a register
after each update. -/

namespace Sys2Proof.Machine

variable (s : State)

/-! ## setReg -/

@[simp] theorem State.setReg_memory (r : Reg) (v : Byte) : (s.setReg r v).memory = s.memory := rfl
@[simp] theorem State.setReg_pc (r : Reg) (v : Byte) : (s.setReg r v).pc = s.pc := rfl
@[simp] theorem State.setReg_V (r : Reg) (v : Byte) : (s.setReg r v).V = s.V.set r v := rfl
@[simp] theorem State.setReg_I (r : Reg) (v : Byte) : (s.setReg r v).I = s.I := rfl
@[simp] theorem State.setReg_DT (r : Reg) (v : Byte) : (s.setReg r v).DT = s.DT := rfl
@[simp] theorem State.setReg_ST (r : Reg) (v : Byte) : (s.setReg r v).ST = s.ST := rfl
@[simp] theorem State.setReg_stack (r : Reg) (v : Byte) : (s.setReg r v).stack = s.stack := rfl
@[simp] theorem State.setReg_keypad (r : Reg) (v : Byte) : (s.setReg r v).keypad = s.keypad := rfl
@[simp] theorem State.setReg_display (r : Reg) (v : Byte) : (s.setReg r v).display = s.display := rfl
@[simp] theorem State.setReg_redrawPending (r : Reg) (v : Byte) : (s.setReg r v).redrawPending = s.redrawPending := rfl
@[simp] theorem State.setReg_keyWaitLatch (r : Reg) (v : Byte) : (s.setReg r v).keyWaitLatch = s.keyWaitLatch := rfl
@[simp] theorem State.setReg_seed (r : Reg) (v : Byte) : (s.setReg r v).seed = s.seed := rfl
@[simp] theorem State.setReg_halted (r : Reg) (v : Byte) : (s.setReg r v).halted = s.halted := rfl
@[simp] theorem State.setReg_freeCount (r : Reg) (v : Byte) : (s.setReg r v).freeCount = s.freeCount := rfl

/-! ## setPc -/

@[simp] theorem State.setPc_memory (v : Word) : (s.setPc v).memory = s.memory := rfl
@[simp] theorem State.setPc_pc (v : Word) : (s.setPc v).pc = v := rfl
@[simp] theorem State.setPc_V (v : Word) : (s.setPc v).V = s.V := rfl
@[simp] theorem State.setPc_I (v : Word) : (s.setPc v).I = s.I := rfl
@[simp] theorem State.setPc_DT (v : Word) : (s.setPc v).DT = s.DT := rfl
@[simp] theorem State.setPc_ST (v : Word) : (s.setPc v).ST = s.ST := rfl
@[simp] theorem State.setPc_stack (v : Word) : (s.setPc v).stack = s.stack := rfl
@[simp] theorem State.setPc_keypad (v : Word) : (s.setPc v).keypad = s.keypad := rfl
@[simp] theorem State.setPc_display (v : Word) : (s.setPc v).display = s.display := rfl
@[simp] theorem State.setPc_redrawPending (v : Word) : (s.setPc v).redrawPending = s.redrawPending := rfl
@[simp] theorem State.setPc_keyWaitLatch (v : Word) : (s.setPc v).keyWaitLatch = s.keyWaitLatch := rfl
@[simp] theorem State.setPc_seed (v : Word) : (s.setPc v).seed = s.seed := rfl
@[simp] theorem State.setPc_halted (v : Word) : (s.setPc v).halted = s.halted := rfl
@[simp] theorem State.setPc_freeCount (v : Word) : (s.setPc v).freeCount = s.freeCount := rfl

/-! ## setI -/

@[simp] theorem State.setI_memory (v : Word) : (s.setI v).memory = s.memory := rfl
@[simp] theorem State.setI_pc (v : Word) : (s.setI v).pc = s.pc := rfl
@[simp] theorem State.setI_V (v : Word) : (s.setI v).V = s.V := rfl
@[simp] theorem State.setI_I (v : Word) : (s.setI v).I = v := rfl
@[simp] theorem State.setI_DT (v : Word) : (s.setI v).DT = s.DT := rfl
@[simp] theorem State.setI_ST (v : Word) : (s.setI v).ST = s.ST := rfl
@[simp] theorem State.setI_stack (v : Word) : (s.setI v).stack = s.stack := rfl
@[simp] theorem State.setI_keypad (v : Word) : (s.setI v).keypad = s.keypad := rfl
@[simp] theorem State.setI_display (v : Word) : (s.setI v).display = s.display := rfl
@[simp] theorem State.setI_redrawPending (v : Word) : (s.setI v).redrawPending = s.redrawPending := rfl
@[simp] theorem State.setI_keyWaitLatch (v : Word) : (s.setI v).keyWaitLatch = s.keyWaitLatch := rfl
@[simp] theorem State.setI_seed (v : Word) : (s.setI v).seed = s.seed := rfl
@[simp] theorem State.setI_halted (v : Word) : (s.setI v).halted = s.halted := rfl
@[simp] theorem State.setI_freeCount (v : Word) : (s.setI v).freeCount = s.freeCount := rfl

/-! ## setDT -/

@[simp] theorem State.setDT_memory (v : Byte) : (s.setDT v).memory = s.memory := rfl
@[simp] theorem State.setDT_pc (v : Byte) : (s.setDT v).pc = s.pc := rfl
@[simp] theorem State.setDT_V (v : Byte) : (s.setDT v).V = s.V := rfl
@[simp] theorem State.setDT_I (v : Byte) : (s.setDT v).I = s.I := rfl
@[simp] theorem State.setDT_DT (v : Byte) : (s.setDT v).DT = v := rfl
@[simp] theorem State.setDT_ST (v : Byte) : (s.setDT v).ST = s.ST := rfl
@[simp] theorem State.setDT_stack (v : Byte) : (s.setDT v).stack = s.stack := rfl
@[simp] theorem State.setDT_keypad (v : Byte) : (s.setDT v).keypad = s.keypad := rfl
@[simp] theorem State.setDT_display (v : Byte) : (s.setDT v).display = s.display := rfl
@[simp] theorem State.setDT_redrawPending (v : Byte) : (s.setDT v).redrawPending = s.redrawPending := rfl
@[simp] theorem State.setDT_keyWaitLatch (v : Byte) : (s.setDT v).keyWaitLatch = s.keyWaitLatch := rfl
@[simp] theorem State.setDT_seed (v : Byte) : (s.setDT v).seed = s.seed := rfl
@[simp] theorem State.setDT_halted (v : Byte) : (s.setDT v).halted = s.halted := rfl
@[simp] theorem State.setDT_freeCount (v : Byte) : (s.setDT v).freeCount = s.freeCount := rfl

/-! ## setST -/

@[simp] theorem State.setST_memory (v : Byte) : (s.setST v).memory = s.memory := rfl
@[simp] theorem State.setST_pc (v : Byte) : (s.setST v).pc = s.pc := rfl
@[simp] theorem State.setST_V (v : Byte) : (s.setST v).V = s.V := rfl
@[simp] theorem State.setST_I (v : Byte) : (s.setST v).I = s.I := rfl
@[simp] theorem State.setST_DT (v : Byte) : (s.setST v).DT = s.DT := rfl
@[simp] theorem State.setST_ST (v : Byte) : (s.setST v).ST = v := rfl
@[simp] theorem State.setST_stack (v : Byte) : (s.setST v).stack = s.stack := rfl
@[simp] theorem State.setST_keypad (v : Byte) : (s.setST v).keypad = s.keypad := rfl
@[simp] theorem State.setST_display (v : Byte) : (s.setST v).display = s.display := rfl
@[simp] theorem State.setST_redrawPending (v : Byte) : (s.setST v).redrawPending = s.redrawPending := rfl
@[simp] theorem State.setST_keyWaitLatch (v : Byte) : (s.setST v).keyWaitLatch = s.keyWaitLatch := rfl
@[simp] theorem State.setST_seed (v : Byte) : (s.setST v).seed = s.seed := rfl
@[simp] theorem State.setST_halted (v : Byte) : (s.setST v).halted = s.halted := rfl
@[simp] theorem State.setST_freeCount (v : Byte) : (s.setST v).freeCount = s.freeCount := rfl

/-! ## tickFree -/

@[simp] theorem State.tickFree_memory : (s.tickFree).memory = s.memory := rfl
@[simp] theorem State.tickFree_pc : (s.tickFree).pc = s.pc := rfl
@[simp] theorem State.tickFree_V : (s.tickFree).V = s.V := rfl
@[simp] theorem State.tickFree_I : (s.tickFree).I = s.I := rfl
@[simp] theorem State.tickFree_DT : (s.tickFree).DT = s.DT := rfl
@[simp] theorem State.tickFree_ST : (s.tickFree).ST = s.ST := rfl
@[simp] theorem State.tickFree_stack : (s.tickFree).stack = s.stack := rfl
@[simp] theorem State.tickFree_keypad : (s.tickFree).keypad = s.keypad := rfl
@[simp] theorem State.tickFree_display : (s.tickFree).display = s.display := rfl
@[simp] theorem State.tickFree_redrawPending : (s.tickFree).redrawPending = s.redrawPending := rfl
@[simp] theorem State.tickFree_keyWaitLatch : (s.tickFree).keyWaitLatch = s.keyWaitLatch := rfl
@[simp] theorem State.tickFree_seed : (s.tickFree).seed = s.seed := rfl
@[simp] theorem State.tickFree_halted : (s.tickFree).halted = s.halted := rfl
@[simp] theorem State.tickFree_freeCount : (s.tickFree).freeCount = s.freeCount + 1 := rfl

/-! ## Registers -/

theorem State.reg_setReg (q r : Reg) (v : Byte) : (s.setReg r v).reg q = if q = r then v else s.reg q := by
  by_cases h : q = r
  · subst h; simp [State.reg, State.setReg, Vector.get_eq_getElem]
  · have h' : r.val ≠ q.val := fun e => h (Fin.ext e.symm)
    simp [State.reg, State.setReg, Vector.get_eq_getElem, h, h']

@[simp] theorem State.reg_setReg_self (r : Reg) (v : Byte) : (s.setReg r v).reg r = v := by
  simp [State.reg_setReg]

theorem State.reg_setReg_other {q r : Reg} (v : Byte) (h : q ≠ r) : (s.setReg r v).reg q = s.reg q := by
  simp [State.reg_setReg, h]

@[simp] theorem State.reg_setPc (q : Reg) (v : Word) : (s.setPc v).reg q = s.reg q := rfl
@[simp] theorem State.reg_setI (q : Reg) (v : Word) : (s.setI v).reg q = s.reg q := rfl
@[simp] theorem State.reg_setDT (q : Reg) (v : Byte) : (s.setDT v).reg q = s.reg q := rfl
@[simp] theorem State.reg_setST (q : Reg) (v : Byte) : (s.setST v).reg q = s.reg q := rfl
@[simp] theorem State.reg_tickFree (q : Reg) : s.tickFree.reg q = s.reg q := rfl

/-- A register write changes nothing but the registers. -/
theorem State.setReg_frame (r : Reg) (v : Byte) : { s.setReg r v with V := s.V } = s := rfl

/-! ## Parameters -/

/-- The types have the widths and counts of the parameter record (spec/00_scope.md R6). -/
theorem types_have_the_widths_of_params :
    Byte = BitVec params.regBits ∧ Byte = BitVec params.timerBits ∧ Word = BitVec params.iBits ∧
      Word = BitVec params.pcBits ∧ Reg = Fin params.nregs ∧ Key = Fin params.nkeys ∧
      PixelRow = BitVec params.dispW ∧ Display = Vector PixelRow params.dispH ∧
      Word = BitVec (8 * params.instrBytes) :=
  ⟨rfl, rfl, rfl, rfl, rfl, rfl, rfl, rfl, rfl⟩

theorem params_instrLength : instrLength = 2 := rfl

/-! ## The program counter's moves -/

theorem advance_eq : advance s = { s with pc := s.pc + 2 } := rfl

theorem skipIf_eq (test : Bool) : skipIf test s = { s with pc := if test then s.pc + 2 else s.pc } := by
  cases test <;> rfl

theorem rewind_eq : rewind s = { s with pc := s.pc - 2 } := rfl

end Sys2Proof.Machine
end

