-- ==== Sys2Proof/Laws/Ops.lean ====
section
/-! SUPPORT. One law per shared operation: everything it can do, so that a proof cites it instead of unfolding it. -/

namespace Sys2Proof.Machine

/-! ## Memory access -/

theorem memRead_eq (s : State) (a : Nat) :
    memRead s a = if a < 4096 then .ok (s.memory.read a) else .error (.dataAddressOutOfRange a) := rfl

theorem memWrite_eq (s : State) (a : Nat) (v : Byte) :
    memWrite s a v =
      if a < 4096 then .ok { s with memory := s.memory.write a v } else .error (.dataAddressOutOfRange a) := rfl

/-- A read of bytes that all exist. -/
theorem readFrom_inside (s : State) {a n : Nat} (h : a + n ≤ 4096) :
    readFrom s a n = .ok ((List.range n).map (fun k => s.memory.read (a + k))) := by
  induction n generalizing a with
  | zero => rfl
  | succ n ih =>
    rw [readFrom, memRead_eq, if_pos (by omega)]
    simp only
    rw [ih (by omega), List.range_succ_eq_map]
    simp [Function.comp_def, Nat.add_assoc, Nat.add_comm 1]

/-- A read of bytes that do not all exist reports the first address that does not. -/
theorem readFrom_outside (s : State) {a n : Nat} (hn : 1 ≤ n) (h : 4096 < a + n) :
    readFrom s a n = .error (.dataAddressOutOfRange (max a 4096)) := by
  induction n generalizing a with
  | zero => omega
  | succ n ih =>
    rw [readFrom, memRead_eq]
    by_cases ha : a < 4096
    · rw [if_pos ha]
      simp only
      rw [ih (by omega) (by omega), show max (a + 1) 4096 = max a 4096 by omega]
    · rw [if_neg ha, show max a 4096 = a by omega]

/-- A store of bytes that all have an address. -/
theorem storeFrom_inside (s : State) {a : Nat} {vs : List Byte} (h : a + vs.length ≤ 4096) :
    storeFrom s a vs = .ok { s with memory := s.memory.writeBytes a vs } := by
  induction vs generalizing s a with
  | nil => rfl
  | cons v vs ih =>
    simp only [List.length_cons] at h
    rw [storeFrom, memWrite_eq, if_pos (by omega)]
    simp only
    rw [ih _ (by omega)]
    rfl

/-- A store of bytes that do not all have an address reports the first one that does not. -/
theorem storeFrom_outside (s : State) {a : Nat} {vs : List Byte} (hn : 1 ≤ vs.length) (h : 4096 < a + vs.length) :
    storeFrom s a vs = .error (.dataAddressOutOfRange (max a 4096)) := by
  induction vs generalizing s a with
  | nil => simp at hn
  | cons v vs ih =>
    simp only [List.length_cons] at h
    rw [storeFrom, memWrite_eq]
    by_cases ha : a < 4096
    · rw [if_pos ha]
      simp only
      rw [ih _ (by omega) (by omega), show max (a + 1) 4096 = max a 4096 by omega]
    · rw [if_neg ha, show max a 4096 = a by omega]

/-! ## The fetch -/

theorem fetch_inside {s : State} (h : s.pc.toNat ≤ 4094) :
    fetch s = .ok (s.memory.read s.pc.toNat ++ s.memory.read (s.pc.toNat + 1)) :=
  if_pos (show s.pc.toNat + 1 < 4096 by omega)

theorem fetch_outside {s : State} (h : 4094 < s.pc.toNat) : fetch s = .error (.fetchOutOfRange s.pc) :=
  if_neg (show ¬ s.pc.toNat + 1 < 4096 by omega)

/-! ## The call stack -/

theorem push_room {s : State} (v : Word) (h : s.sp < 16) : push v s = .ok { s with stack := v :: s.stack } :=
  if_neg (show ¬ 16 ≤ s.stack.length from Nat.not_le.mpr h)

theorem push_full {s : State} (v : Word) (h : 16 ≤ s.sp) : push v s = .error .stackOverflow :=
  if_pos (show 16 ≤ s.stack.length from h)

theorem pop_cons {s : State} {v : Word} {rest : List Word} (h : s.stack = v :: rest) :
    pop s = .ok (v, { s with stack := rest }) := by simp [pop, h]

theorem pop_empty {s : State} (h : s.stack = []) : pop s = .error .stackUnderflow := by simp [pop, h]

/-! ## Flags -/

/-- For this hardware's order: VF holds the flag, any other destination the result, every other register its old value. -/
theorem reg_writeFlagged (x : Reg) (result : Byte) (flag : Bool) (s : State) (q : Reg) :
    (writeFlagged x result flag s).reg q =
      if q = VF then flagByte flag else if q = x then result else s.reg q := by
  simp only [writeFlagged, writeResultAndFlag, show params.flagWriteLast = true from rfl, if_true, State.reg_setReg]

/-- It changes nothing but registers. -/
theorem writeFlagged_frame (x : Reg) (result : Byte) (flag : Bool) (s : State) :
    { writeFlagged x result flag s with V := s.V } = s := by
  simp only [writeFlagged, writeResultAndFlag, show params.flagWriteLast = true from rfl, if_true]
  rfl

theorem toNat_sumByte (a b : Byte) : (sumByte a b).toNat = (a.toNat + b.toNat) % 256 := by
  simp [sumByte]

theorem toNat_differenceByte (a b : Byte) : (differenceByte a b).toNat = (a.toNat + 256 - b.toNat) % 256 := by
  simp [differenceByte]

/-! ## Operands, each with the values of `params` put in -/

@[simp] theorem addrWord_eq (nnn : Addr12) : addrWord nnn = nnn.setWidth 16 := rfl

@[simp] theorem byteWord_eq (b : Byte) : byteWord b = b.setWidth 16 := rfl

theorem indexAfter_eq (x : Reg) (s : State) : indexAfter x s = BitVec.ofNat 16 (s.I.toNat + x + 1) := rfl

theorem glyphAddr_eq (v : Byte) : glyphAddr v = BitVec.ofNat 16 (0 + v.toNat % 16 * 5) := rfl

theorem jumpOffsetTarget_eq (nnn : Addr12) (s : State) :
    jumpOffsetTarget nnn s = nnn.setWidth 16 + (s.reg 0).setWidth 16 := rfl

theorem keyOperand_inside {x : Reg} {s : State} (h : (s.reg x).toNat < 16) :
    keyOperand x s = .ok ⟨(s.reg x).toNat, h⟩ := dif_pos h

theorem keyOperand_outside {x : Reg} {s : State} (h : 15 < (s.reg x).toNat) :
    keyOperand x s = .error (.keyIndexOutOfRange (s.reg x)) :=
  dif_neg (show ¬ (s.reg x).toNat < 16 by omega)

theorem firstPressed_eq (s : State) : firstPressed s = (List.finRange 16).find? (fun k => s.key k) := rfl

/-- What the key wait's scan finds is pressed, and no key before it is. -/
theorem firstPressed_lowest {s : State} {k : Key} (h : firstPressed s = some k) :
    s.key k = true ∧ ∀ j : Key, j < k → s.key j = false := by
  obtain ⟨hk, as, bs, heq, hall⟩ := List.find?_eq_some_iff_append.mp h
  refine ⟨hk, fun j hj => ?_⟩
  have hsorted : (as ++ k :: bs).Pairwise (· < ·) := heq ▸ List.pairwise_lt_finRange 16
  have hmem : j ∈ as ++ k :: bs := heq ▸ List.mem_finRange j
  rcases List.mem_append.mp hmem with hj' | hj'
  · simpa using hall j hj'
  · rcases List.mem_cons.mp hj' with rfl | hj''
    · exact absurd hj (lt_irrefl _)
    · have := (List.pairwise_cons.mp (List.pairwise_append.mp hsorted).2.1).1 j hj''
      exact absurd hj (not_lt.mpr (le_of_lt this))

theorem firstPressed_eq_some {s : State} {k : Key} :
    firstPressed s = some k ↔ s.key k = true ∧ ∀ j : Key, j < k → s.key j = false := by
  refine ⟨firstPressed_lowest, fun ⟨hk, hlow⟩ => ?_⟩
  cases hf : firstPressed s with
  | none => exact absurd hk (by simpa using List.find?_eq_none.mp hf k (List.mem_finRange k))
  | some j =>
    have hj := firstPressed_lowest hf
    rcases lt_trichotomy j k with h | h | h
    · exact absurd hj.1 (by simp [hlow j h])
    · rw [h]
    · exact absurd hk (by simp [hj.2 k h])

theorem firstPressed_eq_none {s : State} : firstPressed s = none ↔ ∀ k : Key, s.key k = false := by
  simp [firstPressed_eq, List.find?_eq_none]

theorem length_regsThrough (x : Reg) (s : State) : (regsThrough x s).length = x + 1 := by
  simp [regsThrough]

theorem getD_regsThrough {x r : Reg} (s : State) (h : r ≤ x) : (regsThrough x s).getD r 0 = s.reg r := by
  have h1 : r.val < x.val + 1 := Nat.lt_succ_of_le h
  simp [regsThrough, List.getD_eq_getElem?_getD, h1, State.reg, Vector.get_eq_getElem]

theorem reg_setRegs (bytes : List Byte) (s : State) (r : Reg) : (setRegs bytes s).reg r = bytes.getD r (s.reg r) := by
  simp [setRegs, State.reg, Vector.get_eq_getElem]

theorem setRegs_frame (bytes : List Byte) (s : State) : { setRegs bytes s with V := s.V } = s := by
  cases s; simp only [setRegs]

/-! Of `setRegs` and `loadHalfDone`, the fields they keep. (Stated field by field: a `rfl` on the whole state compares
the registers too.) -/

@[simp] theorem setRegs_memory (bytes : List Byte) (s : State) : (setRegs bytes s).memory = s.memory := by simp only [setRegs]
@[simp] theorem setRegs_pc (bytes : List Byte) (s : State) : (setRegs bytes s).pc = s.pc := by simp only [setRegs]
@[simp] theorem setRegs_I (bytes : List Byte) (s : State) : (setRegs bytes s).I = s.I := by simp only [setRegs]
@[simp] theorem setRegs_DT (bytes : List Byte) (s : State) : (setRegs bytes s).DT = s.DT := by simp only [setRegs]
@[simp] theorem setRegs_ST (bytes : List Byte) (s : State) : (setRegs bytes s).ST = s.ST := by simp only [setRegs]
@[simp] theorem setRegs_stack (bytes : List Byte) (s : State) : (setRegs bytes s).stack = s.stack := by simp only [setRegs]
@[simp] theorem setRegs_keypad (bytes : List Byte) (s : State) : (setRegs bytes s).keypad = s.keypad := by simp only [setRegs]
@[simp] theorem setRegs_display (bytes : List Byte) (s : State) : (setRegs bytes s).display = s.display := by simp only [setRegs]
@[simp] theorem setRegs_redrawPending (bytes : List Byte) (s : State) : (setRegs bytes s).redrawPending = s.redrawPending := by simp only [setRegs]
@[simp] theorem setRegs_keyWaitLatch (bytes : List Byte) (s : State) : (setRegs bytes s).keyWaitLatch = s.keyWaitLatch := by simp only [setRegs]
@[simp] theorem setRegs_seed (bytes : List Byte) (s : State) : (setRegs bytes s).seed = s.seed := by simp only [setRegs]
@[simp] theorem setRegs_halted (bytes : List Byte) (s : State) : (setRegs bytes s).halted = s.halted := by simp only [setRegs]
@[simp] theorem setRegs_freeCount (bytes : List Byte) (s : State) : (setRegs bytes s).freeCount = s.freeCount := by simp only [setRegs]

theorem reg_loadHalfDone (a : Nat) (x : Reg) (s : State) (r : Reg) :
    (loadHalfDone a x s).reg r =
      if r ≤ x && Config.freeChoice s.freeCount r then loadCandidate a s r else s.reg r := by
  simp [loadHalfDone, State.reg, Vector.get_eq_getElem, State.tickFree]

theorem loadHalfDone_frame (a : Nat) (x : Reg) (s : State) :
    { loadHalfDone a x s with V := s.V, freeCount := s.freeCount } = s := by
  cases s; simp only [loadHalfDone, State.tickFree]

theorem storeHalfDone_frame (a : Nat) (bytes : List Byte) (s : State) :
    { storeHalfDone a bytes s with memory := s.memory, freeCount := s.freeCount } = s := by
  cases s; simp only [storeHalfDone, State.tickFree]

/-! Of the half-done accesses, the fields they keep. -/

@[simp] theorem loadHalfDone_memory (a : Nat) (x : Reg) (s : State) : (loadHalfDone a x s).memory = s.memory := by
  simp only [loadHalfDone, State.tickFree]
@[simp] theorem loadHalfDone_pc (a : Nat) (x : Reg) (s : State) : (loadHalfDone a x s).pc = s.pc := by
  simp only [loadHalfDone, State.tickFree]
@[simp] theorem loadHalfDone_I (a : Nat) (x : Reg) (s : State) : (loadHalfDone a x s).I = s.I := by
  simp only [loadHalfDone, State.tickFree]
@[simp] theorem loadHalfDone_DT (a : Nat) (x : Reg) (s : State) : (loadHalfDone a x s).DT = s.DT := by
  simp only [loadHalfDone, State.tickFree]
@[simp] theorem loadHalfDone_ST (a : Nat) (x : Reg) (s : State) : (loadHalfDone a x s).ST = s.ST := by
  simp only [loadHalfDone, State.tickFree]
@[simp] theorem loadHalfDone_stack (a : Nat) (x : Reg) (s : State) : (loadHalfDone a x s).stack = s.stack := by
  simp only [loadHalfDone, State.tickFree]
@[simp] theorem loadHalfDone_keypad (a : Nat) (x : Reg) (s : State) : (loadHalfDone a x s).keypad = s.keypad := by
  simp only [loadHalfDone, State.tickFree]
@[simp] theorem loadHalfDone_display (a : Nat) (x : Reg) (s : State) : (loadHalfDone a x s).display = s.display := by
  simp only [loadHalfDone, State.tickFree]
@[simp] theorem loadHalfDone_redrawPending (a : Nat) (x : Reg) (s : State) : (loadHalfDone a x s).redrawPending = s.redrawPending := by
  simp only [loadHalfDone, State.tickFree]
@[simp] theorem loadHalfDone_keyWaitLatch (a : Nat) (x : Reg) (s : State) : (loadHalfDone a x s).keyWaitLatch = s.keyWaitLatch := by
  simp only [loadHalfDone, State.tickFree]
@[simp] theorem loadHalfDone_seed (a : Nat) (x : Reg) (s : State) : (loadHalfDone a x s).seed = s.seed := by
  simp only [loadHalfDone, State.tickFree]
@[simp] theorem loadHalfDone_halted (a : Nat) (x : Reg) (s : State) : (loadHalfDone a x s).halted = s.halted := by
  simp only [loadHalfDone, State.tickFree]
@[simp] theorem storeHalfDone_pc (a : Nat) (bytes : List Byte) (s : State) : (storeHalfDone a bytes s).pc = s.pc := by
  simp only [storeHalfDone, State.tickFree]
@[simp] theorem storeHalfDone_V (a : Nat) (bytes : List Byte) (s : State) : (storeHalfDone a bytes s).V = s.V := by
  simp only [storeHalfDone, State.tickFree]
@[simp] theorem storeHalfDone_I (a : Nat) (bytes : List Byte) (s : State) : (storeHalfDone a bytes s).I = s.I := by
  simp only [storeHalfDone, State.tickFree]
@[simp] theorem storeHalfDone_DT (a : Nat) (bytes : List Byte) (s : State) : (storeHalfDone a bytes s).DT = s.DT := by
  simp only [storeHalfDone, State.tickFree]
@[simp] theorem storeHalfDone_ST (a : Nat) (bytes : List Byte) (s : State) : (storeHalfDone a bytes s).ST = s.ST := by
  simp only [storeHalfDone, State.tickFree]
@[simp] theorem storeHalfDone_stack (a : Nat) (bytes : List Byte) (s : State) : (storeHalfDone a bytes s).stack = s.stack := by
  simp only [storeHalfDone, State.tickFree]
@[simp] theorem storeHalfDone_keypad (a : Nat) (bytes : List Byte) (s : State) : (storeHalfDone a bytes s).keypad = s.keypad := by
  simp only [storeHalfDone, State.tickFree]
@[simp] theorem storeHalfDone_display (a : Nat) (bytes : List Byte) (s : State) : (storeHalfDone a bytes s).display = s.display := by
  simp only [storeHalfDone, State.tickFree]
@[simp] theorem storeHalfDone_redrawPending (a : Nat) (bytes : List Byte) (s : State) : (storeHalfDone a bytes s).redrawPending = s.redrawPending := by
  simp only [storeHalfDone, State.tickFree]
@[simp] theorem storeHalfDone_keyWaitLatch (a : Nat) (bytes : List Byte) (s : State) : (storeHalfDone a bytes s).keyWaitLatch = s.keyWaitLatch := by
  simp only [storeHalfDone, State.tickFree]
@[simp] theorem storeHalfDone_seed (a : Nat) (bytes : List Byte) (s : State) : (storeHalfDone a bytes s).seed = s.seed := by
  simp only [storeHalfDone, State.tickFree]
@[simp] theorem storeHalfDone_halted (a : Nat) (bytes : List Byte) (s : State) : (storeHalfDone a bytes s).halted = s.halted := by
  simp only [storeHalfDone, State.tickFree]

/-- A byte of memory after a store that faulted: the old one, or the one it was to write where the address exists. -/
theorem read_storeHalfDone (a : Nat) (bytes : List Byte) (s : State) (b : Nat) :
    (storeHalfDone a bytes s).memory.read b = s.memory.read b ∨
      (a ≤ b ∧ b < a + bytes.length ∧ b < 4096 ∧ (storeHalfDone a bytes s).memory.read b = bytes.getD (b - a) 0) :=
  Memory.read_writeChosen ..

/-! ## Flags beside results -/

/-- All that a flag-writing operation does to the registers. -/
theorem writeFlagged_cases (x : Reg) (result : Byte) (flag : Bool) (s : State) :
    (writeFlagged x result flag s).reg VF = flagByte flag ∧
      (x ≠ VF → (writeFlagged x result flag s).reg x = result) ∧
      (∀ r, r ≠ x → r ≠ VF → (writeFlagged x result flag s).reg r = s.reg r) :=
  ⟨by simp [reg_writeFlagged], fun h => by simp [reg_writeFlagged, h], fun r h1 h2 => by simp [reg_writeFlagged, h1, h2]⟩

theorem toNat_flagByte (p : Prop) [Decidable p] : (flagByte (decide p)).toNat = if p then 1 else 0 := by
  by_cases h : p <;> simp [flagByte, h]

end Sys2Proof.Machine
end

