-- ==== Sys2Proof/Laws/Draw.lean ====
section
/-! SUPPORT. What drawing does: one row by `drawBits`, all rows by `drawRows`, cell by cell. -/

namespace Sys2Proof.Machine

/-- Bit cx of a row with bit k flipped. -/
theorem getLsbD_flip (row : PixelRow) {k cx : Nat} (hk : k < 64) :
    (row ^^^ (1#64 <<< k)).getLsbD cx = (row.getLsbD cx ^^ decide (cx = k)) := by
  have h1 : (1#64).getLsbD (cx - k) = decide (cx - k = 0) := by
    by_cases h : cx - k = 0 <;> simp [h, BitVec.getLsbD_one]
  simp only [BitVec.getLsbD_xor, BitVec.getLsbD_shiftLeft, h1]
  congr 1
  by_cases h : cx < k
  · have : ¬ cx = k := by omega
    simp [h, this]
  · by_cases h' : cx = k
    · subst h'; simp [hk]
    · have : ¬ cx - k = 0 := by omega
      simp [h', this]

/-- The corner, in this hardware's columns and rows. -/
theorem startColumn_eq (x : Reg) (s : State) : startColumn x s = (s.reg x).toNat % 64 := rfl

theorem startRow_eq (y : Reg) (s : State) : startRow y s = (s.reg y).toNat % 32 := rfl

/-- One column of a sprite byte: columns above 63 end the row. -/
theorem drawBits_cons (b : Byte) (x0 c : Nat) (cs : List Nat) (row : PixelRow) (hit : Bool) :
    drawBits b x0 (c :: cs) row hit =
      if x0 + c > 63 then (row, hit)
      else if b.getLsbD (7 - c) then drawBits b x0 cs (row ^^^ (1#64 <<< (x0 + c))) (hit || row.getLsbD (x0 + c))
      else drawBits b x0 cs row hit := rfl

/-- One row of a sprite: rows below the last end the drawing. -/
theorem drawRows_succ (rowByte : Nat → Except Fault Byte) (x0 y0 n r : Nat) (d : Display) (hit : Bool) :
    drawRows rowByte x0 y0 (n + 1) r d hit =
      if h : y0 + r < 32 then
        match rowByte r with
        | .error f => .error f
        | .ok b =>
          drawRows rowByte x0 y0 n (r + 1) (d.set (y0 + r) (drawBits b x0 spriteColumns (d.get ⟨y0 + r, h⟩) hit).1)
            (drawBits b x0 spriteColumns (d.get ⟨y0 + r, h⟩) hit).2
      else .ok (d, hit) := rfl

/-- The columns from c on, n of them. -/
theorem drawBits_cell (b : Byte) (x0 c n : Nat) (row : PixelRow) (hit : Bool) {cx : Nat} (hcx : cx < 64) :
    (drawBits b x0 (List.range' c n) row hit).1.getLsbD cx =
      (row.getLsbD cx ^^ (decide (x0 + c ≤ cx ∧ cx < x0 + c + n) && b.getLsbD (7 - (cx - x0)))) := by
  induction n generalizing c row hit with
  | zero =>
    have : ¬ (x0 + c ≤ cx ∧ cx < x0 + c + 0) := by omega
    simp only [List.range'_zero, drawBits, this, decide_false, Bool.false_and, Bool.xor_false]
  | succ n ih =>
    rw [List.range'_succ, drawBits_cons]
    by_cases hout : x0 + c > 63
    · have : ¬ (x0 + c ≤ cx ∧ cx < x0 + c + (n + 1)) := by omega
      simp only [if_pos hout, this, decide_false, Bool.false_and, Bool.xor_false]
    · rw [if_neg hout]
      by_cases hcol : cx = x0 + c
      · subst hcol
        have hn : ¬ (x0 + (c + 1) ≤ x0 + c ∧ x0 + c < x0 + (c + 1) + n) := by omega
        have hp : x0 + c ≤ x0 + c ∧ x0 + c < x0 + c + (n + 1) := by omega
        have hbit : 7 - (x0 + c - x0) = 7 - c := by omega
        by_cases hb : b.getLsbD (7 - c) = true
        · rw [if_pos hb, ih, getLsbD_flip row hcx]
          simp only [hn, hp, hbit, hb, decide_true, decide_false, Bool.false_and, Bool.xor_false]
          simp
        · rw [if_neg hb, ih]
          simp only [hn, hbit, hb, decide_false, Bool.and_false, Bool.xor_false]
      · have hiff : (x0 + (c + 1) ≤ cx ∧ cx < x0 + (c + 1) + n) ↔ (x0 + c ≤ cx ∧ cx < x0 + c + (n + 1)) := by omega
        by_cases hb : b.getLsbD (7 - c) = true
        · rw [if_pos hb, ih, getLsbD_flip row (by omega), decide_eq_false hcol, Bool.xor_false,
            decide_eq_decide.mpr hiff]
        · rw [if_neg hb, ih, decide_eq_decide.mpr hiff]

/-- A collision: a 1 bit drawn on a cell that was true. -/
theorem drawBits_hit (b : Byte) (x0 c n : Nat) (row : PixelRow) (hit : Bool) :
    (drawBits b x0 (List.range' c n) row hit).2 = true ↔
      hit = true ∨ ∃ cx, cx < 64 ∧ x0 + c ≤ cx ∧ cx < x0 + c + n ∧ b.getLsbD (7 - (cx - x0)) = true ∧
        row.getLsbD cx = true := by
  induction n generalizing c row hit with
  | zero =>
    constructor
    · exact .inl
    · rintro (h | ⟨cx, _, h1, h2, _⟩)
      · exact h
      · omega
  | succ n ih =>
    rw [List.range'_succ, drawBits_cons]
    by_cases hout : x0 + c > 63
    · rw [if_pos hout]
      constructor
      · exact .inl
      · rintro (h | ⟨cx, _, h1, _⟩)
        · exact h
        · omega
    · rw [if_neg hout]
      have hbit : 7 - (x0 + c - x0) = 7 - c := by omega
      by_cases hb : b.getLsbD (7 - c) = true
      · rw [if_pos hb, ih]
        constructor
        · rintro (h | ⟨cx, h0, h1, h2, h3, h4⟩)
          · rcases Bool.or_eq_true _ _ ▸ h with h | h
            · exact .inl h
            · exact .inr ⟨x0 + c, by omega, by omega, by omega, by rw [hbit]; exact hb, h⟩
          · rw [getLsbD_flip row (by omega), decide_eq_false (by omega), Bool.xor_false] at h4
            exact .inr ⟨cx, h0, by omega, by omega, h3, h4⟩
        · rintro (h | ⟨cx, h0, h1, h2, h3, h4⟩)
          · exact .inl (by simp [h])
          · by_cases hcol : cx = x0 + c
            · subst hcol; exact .inl (by simp [h4])
            · refine .inr ⟨cx, h0, by omega, by omega, h3, ?_⟩
              rw [getLsbD_flip row (by omega), decide_eq_false hcol, Bool.xor_false, h4]
      · rw [if_neg hb, ih]
        constructor
        · rintro (h | ⟨cx, h0, h1, h2, h3, h4⟩)
          · exact .inl h
          · exact .inr ⟨cx, h0, by omega, by omega, h3, h4⟩
        · rintro (h | ⟨cx, h0, h1, h2, h3, h4⟩)
          · exact .inl h
          · have hcol : cx ≠ x0 + c := by rintro rfl; rw [hbit] at h3; exact hb h3
            exact .inr ⟨cx, h0, by omega, by omega, h3, h4⟩

theorem spriteColumns_eq : spriteColumns = List.range' 0 8 := rfl

/-- Whether sprite rows r..r+n-1, whose bytes are `bytes`, light the cell of column cx and row cy. -/
def rowsLight (bytes : Nat → Byte) (x0 y0 r n cx cy : Nat) : Bool :=
  decide (x0 ≤ cx ∧ cx < x0 + 8) && decide (y0 + r ≤ cy ∧ cy < y0 + r + n) &&
    (bytes (cy - y0)).getLsbD (7 - (cx - x0))

/-- Rows that can all be read are all drawn, cell by cell. -/
theorem drawRows_readable (rowByte : Nat → Except Fault Byte) (bytes : Nat → Byte) (x0 y0 n r : Nat) (d : Display)
    (hit : Bool) (hread : ∀ k, r ≤ k → k < r + n → y0 + k < 32 → rowByte k = .ok (bytes k)) :
    ∃ d' hit', drawRows rowByte x0 y0 n r d hit = .ok (d', hit') ∧
      (∀ (cx : Fin 64) (cy : Fin 32),
        (d'.get cy).getLsbD cx = ((d.get cy).getLsbD cx ^^ rowsLight bytes x0 y0 r n cx cy)) ∧
      (hit' = true ↔ hit = true ∨ ∃ (cx : Fin 64) (cy : Fin 32),
        rowsLight bytes x0 y0 r n cx cy = true ∧ (d.get cy).getLsbD cx = true) := by
  induction n generalizing r d hit with
  | zero =>
    have hnone : ∀ (cx : Fin 64) (cy : Fin 32), rowsLight bytes x0 y0 r 0 cx cy = false := by
      intro cx cy
      have : ¬ (y0 + r ≤ cy.val ∧ cy.val < y0 + r + 0) := by omega
      simp only [rowsLight, this, decide_false, Bool.and_false, Bool.false_and]
    exact ⟨d, hit, rfl, by simp [hnone], by simp [hnone]⟩
  | succ n ih =>
    rw [drawRows_succ]
    by_cases hy : y0 + r < 32
    · rw [dif_pos hy, hread r (le_refl _) (by omega) hy]
      simp only [spriteColumns_eq]
      have hcell := @drawBits_cell (bytes r) x0 0 8 (d.get ⟨y0 + r, hy⟩) hit
      have hhit := drawBits_hit (bytes r) x0 0 8 (d.get ⟨y0 + r, hy⟩) hit
      rcases hd : drawBits (bytes r) x0 (List.range' 0 8) (d.get ⟨y0 + r, hy⟩) hit with ⟨row, hit1⟩
      rw [hd] at hcell hhit
      simp only at hcell hhit ⊢
      obtain ⟨d', hit', heq, hcells, hhits⟩ := ih (r + 1) (d.set (y0 + r) row) hit1
        (fun k h1 h2 h3 => hread k (by omega) (by omega) h3)
      have hget : ∀ cy : Fin 32, (d.set (y0 + r) row).get cy = if cy.val = y0 + r then row else d.get cy := by
        intro cy
        by_cases h : cy.val = y0 + r
        · simp [Vector.get_eq_getElem, h]
        · have h' : y0 + r ≠ cy.val := fun e => h e.symm
          simp [Vector.get_eq_getElem, h, h']
      have hsplit : ∀ (cx : Fin 64) (cy : Fin 32), cy.val ≠ y0 + r →
          rowsLight bytes x0 y0 r (n + 1) cx cy = rowsLight bytes x0 y0 (r + 1) n cx cy := by
        intro cx cy h
        have : (y0 + (r + 1) ≤ cy.val ∧ cy.val < y0 + (r + 1) + n) ↔ (y0 + r ≤ cy.val ∧ cy.val < y0 + r + (n + 1)) := by
          omega
        simp only [rowsLight, decide_eq_decide.mpr this]
      have hthis : ∀ (cx : Fin 64) (cy : Fin 32), cy.val = y0 + r →
          rowsLight bytes x0 y0 r (n + 1) cx cy =
            (decide (x0 + 0 ≤ cx.val ∧ cx.val < x0 + 0 + 8) && (bytes r).getLsbD (7 - (cx.val - x0))) ∧
          rowsLight bytes x0 y0 (r + 1) n cx cy = false := by
        intro cx cy h
        have h1 : y0 + r ≤ cy.val ∧ cy.val < y0 + r + (n + 1) := by omega
        have h2 : ¬ (y0 + (r + 1) ≤ cy.val ∧ cy.val < y0 + (r + 1) + n) := by omega
        have h3 : cy.val - y0 = r := by omega
        exact ⟨by simp only [rowsLight, h1, h3, Nat.add_zero, and_self, decide_true, Bool.and_true],
          by simp only [rowsLight, h2, decide_false, Bool.and_false, Bool.false_and]⟩
      refine ⟨d', hit', heq, fun cx cy => ?_, ?_⟩
      · rw [hcells, hget]
        by_cases h : cy.val = y0 + r
        · have hcy : cy = ⟨y0 + r, hy⟩ := Fin.ext h
          rw [if_pos h, (hthis cx cy h).2, Bool.xor_false, (hthis cx cy h).1, hcell cx.isLt, hcy]
        · rw [if_neg h, hsplit cx cy h]
      · rw [hhits, hhit]
        constructor
        · rintro ((h | ⟨cx, h0, h1, h2, h3, h4⟩) | ⟨cx, cy, h1, h2⟩)
          · exact .inl h
          · refine .inr ⟨⟨cx, h0⟩, ⟨y0 + r, hy⟩, ?_, h4⟩
            rw [(hthis ⟨cx, h0⟩ ⟨y0 + r, hy⟩ rfl).1]
            simp only [h1, h2, h3, and_self, decide_true, Bool.and_self]
          · by_cases h : cy.val = y0 + r
            · rw [(hthis cx cy h).2] at h1; exact absurd h1 (by simp)
            · rw [hget, if_neg h] at h2
              exact .inr ⟨cx, cy, by rw [hsplit cx cy h]; exact h1, h2⟩
        · rintro (h | ⟨cx, cy, h1, h2⟩)
          · exact .inl (.inl h)
          · by_cases h : cy.val = y0 + r
            · have hcy : cy = ⟨y0 + r, hy⟩ := Fin.ext h
              rw [(hthis cx cy h).1, Bool.and_eq_true, decide_eq_true_eq] at h1
              exact .inl (.inr ⟨cx.val, cx.isLt, h1.1.1, h1.1.2, h1.2, hcy ▸ h2⟩)
            · refine .inr ⟨cx, cy, by rw [← hsplit cx cy h]; exact h1, ?_⟩
              rw [hget, if_neg h]; exact h2
    · rw [dif_neg hy]
      have hnone : ∀ (cx : Fin 64) (cy : Fin 32), rowsLight bytes x0 y0 r (n + 1) cx cy = false := by
        intro cx cy
        have : ¬ (y0 + r ≤ cy.val ∧ cy.val < y0 + r + (n + 1)) := by omega
        simp [rowsLight, this]
      exact ⟨d, hit, rfl, by simp [hnone], by simp [hnone]⟩

/-- A row on screen whose byte has no address ends the drawing with the first such address. -/
theorem drawRows_unreadable (s : State) (x0 y0 n r : Nat) (d : Display) (hit : Bool) (h1 : 1 ≤ min n (32 - (y0 + r)))
    (h2 : 4096 < s.I.toNat + r + min n (32 - (y0 + r))) :
    drawRows (spriteByte s) x0 y0 n r d hit = .error (.dataAddressOutOfRange (max (s.I.toNat + r) 4096)) := by
  induction n generalizing r d hit with
  | zero => omega
  | succ n ih =>
    have hy : y0 + r < 32 := by omega
    rw [drawRows_succ, dif_pos hy, show spriteByte s r = memRead s (s.I.toNat + r) from rfl, memRead_eq]
    by_cases ha : s.I.toNat + r < 4096
    · rw [if_pos ha]
      simp only
      rw [ih (r + 1) _ _ (by omega) (by omega)]
      congr 2; omega
    · rw [if_neg ha]
      simp only
      congr 2; omega

theorem spriteByteHalfDone_ok (s : State) (r : Nat) : ∃ b, spriteByteHalfDone s r = .ok b := by
  unfold spriteByteHalfDone
  cases spriteByte s r <;> exact ⟨_, rfl⟩

/-- The half-done draw: some display, some VF, one occasion used, and nothing else. -/
theorem drawHalfDone_eq (x y : Reg) (n : Nibble) (s : State) :
    ∃ d, drawHalfDone x y n s = ({ s with display := d }.setReg VF (flagHalfDone s)).tickFree := by
  let bytes : Nat → Byte := fun k => match spriteByteHalfDone s k with | .ok b => b | .error _ => 0
  obtain ⟨d, hit, h, _⟩ := drawRows_readable (spriteByteHalfDone s) bytes (startColumn x s) (startRow y s) n.toNat 0
    s.display false (fun k _ _ _ => by
      obtain ⟨b, hb⟩ := spriteByteHalfDone_ok s k
      simp only [bytes, hb])
  exact ⟨d, by simp only [drawHalfDone, h]⟩

/-- When the rows of a sprite can be drawn, and the fault when they cannot. -/
theorem drawRows_sprite (x y : Reg) (n : Nibble) (s : State) :
    ((n = 0 ∨ s.I.toNat + s.rowsOnScreen y n ≤ 4096) ∧ ∃ d hit,
      drawRows (spriteByte s) (startColumn x s) (startRow y s) n.toNat 0 s.display false = .ok (d, hit)) ∨
    ((n ≠ 0 ∧ 4096 < s.I.toNat + s.rowsOnScreen y n) ∧
      drawRows (spriteByte s) (startColumn x s) (startRow y s) n.toNat 0 s.display false =
        .error (.dataAddressOutOfRange (max s.I.toNat 4096))) := by
  by_cases h : n = 0 ∨ s.I.toNat + s.rowsOnScreen y n ≤ 4096
  · obtain ⟨d, hit, hd, _⟩ := drawRows_readable (spriteByte s) (fun k => s.memory.read (s.I.toNat + k)) (startColumn x s)
      (startRow y s) n.toNat 0 s.display false (fun k _ hk hy => by
        rw [show spriteByte s k = memRead s (s.I.toNat + k) from rfl, memRead_eq, if_pos]
        rcases h with rfl | h
        · exact absurd hk (by simp)
        · rw [State.rowsOnScreen] at h; rw [startRow_eq] at hy; omega)
    exact .inl ⟨h, d, hit, hd⟩
  · have hn : n ≠ 0 := fun e => h (.inl e)
    have h0 : n.toNat ≠ 0 := fun e => hn (BitVec.eq_of_toNat_eq e)
    have hb : 4096 < s.I.toNat + s.rowsOnScreen y n := by omega
    refine .inr ⟨⟨hn, hb⟩, ?_⟩
    rw [State.rowsOnScreen] at hb
    exact drawRows_unreadable s _ _ _ 0 _ _ (by rw [startRow_eq]; omega) (by rw [startRow_eq]; omega)

end Sys2Proof.Machine
end

