-- ==== Sys2Proof/Laws/Host.lean ====
section
/-! SUPPORT. The operations of the host: what each can do, and the fields it keeps. -/

namespace Sys2Proof.Machine

/-! ## The state after an operation -/

@[simp] theorem stateAfter_next (s t : State) : stateAfter s (.next t) = t := rfl
@[simp] theorem stateAfter_fault (s : State) (f : Fault) : stateAfter s (.fault f) = s := rfl
@[simp] theorem stateAfter_refused (s : State) (r : Refusal) : stateAfter s (.refused r) = s := rfl

/-! ## Memory -/

theorem length_font : params.font.length = 80 := rfl

theorem fontBytes_eq : params.fontBytes = 80 := rfl

/-- FONT has FONT_BYTES bytes, and a program image fills the memory above PROG_BASE (R6). -/
theorem params_consistent :
    params.font.length = params.fontBytes ∧ params.progMax = params.memSize - params.progBase := ⟨rfl, rfl⟩

theorem fontBase_eq : params.fontBase = 0 := rfl

theorem Memory.background_eq (a : Nat) : Memory.background a = params.font.getD a 0 := if_neg (Nat.not_lt_zero a)

/-- Before the font is loaded every byte is zero. -/
theorem Memory.read_blank (a : Nat) : Memory.blank.read a = 0 := by
  rw [Memory.blank, Memory.read_writeBytes, fontBase_eq, List.length_replicate, fontBytes_eq]
  by_cases h : a < 80
  · rw [if_pos (by omega), List.getD_replicate]; omega
  · have : params.font.length ≤ a := by rw [length_font]; omega
    rw [if_neg (by omega), Memory.read, Memory.background_eq, List.getD_eq_default _ _ this]

theorem Memory.wf_blank : Memory.blank.wf = true :=
  Memory.wf_writeBytes rfl (by rw [fontBase_eq, List.length_replicate, fontBytes_eq]; omega)

/-- FONT written to its place. -/
theorem Memory.wf_writeFont {m : Memory} (hm : m.wf = true) : (m.writeBytes params.fontBase params.font).wf = true :=
  Memory.wf_writeBytes hm (by rw [fontBase_eq, length_font]; omega)

/-! ## `load_font` keeps every field but memory -/

theorem loadFont_eq (s : State) : loadFont s = { s with memory := s.memory.writeBytes params.fontBase params.font } := rfl

@[simp] theorem loadFont_pc (s : State) : (loadFont s).pc = s.pc := by simp only [loadFont]
@[simp] theorem loadFont_V (s : State) : (loadFont s).V = s.V := by simp only [loadFont]
@[simp] theorem loadFont_I (s : State) : (loadFont s).I = s.I := by simp only [loadFont]
@[simp] theorem loadFont_DT (s : State) : (loadFont s).DT = s.DT := by simp only [loadFont]
@[simp] theorem loadFont_ST (s : State) : (loadFont s).ST = s.ST := by simp only [loadFont]
@[simp] theorem loadFont_stack (s : State) : (loadFont s).stack = s.stack := by simp only [loadFont]
@[simp] theorem loadFont_keypad (s : State) : (loadFont s).keypad = s.keypad := by simp only [loadFont]
@[simp] theorem loadFont_display (s : State) : (loadFont s).display = s.display := by simp only [loadFont]
@[simp] theorem loadFont_redrawPending (s : State) : (loadFont s).redrawPending = s.redrawPending := by
  simp only [loadFont]
@[simp] theorem loadFont_keyWaitLatch (s : State) : (loadFont s).keyWaitLatch = s.keyWaitLatch := by simp only [loadFont]
@[simp] theorem loadFont_seed (s : State) : (loadFont s).seed = s.seed := by simp only [loadFont]
@[simp] theorem loadFont_halted (s : State) : (loadFont s).halted = s.halted := by simp only [loadFont]
@[simp] theorem loadFont_freeCount (s : State) : (loadFont s).freeCount = s.freeCount := by simp only [loadFont]

/-! ## The operations with a domain -/

theorem loadProgram_cases (image : List Byte) (s : State) :
    (image.length ≤ 3584 ∧ loadProgram image s = .next { s with memory := s.memory.writeBytes 512 image }) ∨
      (3584 < image.length ∧ loadProgram image s = .refused (.programTooLong image.length)) := by
  rcases Nat.lt_or_ge 3584 image.length with h | h
  · exact .inr ⟨h, if_neg (by simpa [imageWellFormed, show params.progMax = 3584 from rfl] using h)⟩
  · exact .inl ⟨h, if_pos (by simpa [imageWellFormed, show params.progMax = 3584 from rfl] using h)⟩

theorem setKey_cases (index : Nat) (pressed : Bool) (s : State) :
    (∃ k : Key, k.val = index ∧ setKey index pressed s = .next { s with keypad := s.keypad.set k pressed }) ∨
      (15 < index ∧ setKey index pressed s = .refused (.keyIndexOutsideDomain index)) := by
  rcases Nat.lt_or_ge index 16 with h | h
  · exact .inl ⟨⟨index, h⟩, rfl, dif_pos (decide_eq_true h)⟩
  · exact .inr ⟨h, dif_neg (by simpa [keyIndexWellFormed, show params.nkeys = 16 from rfl] using h)⟩

theorem key_set (s : State) (k j : Key) (pressed : Bool) :
    ({ s with keypad := s.keypad.set k pressed } : State).key j = if j = k then pressed else s.key j := by
  by_cases h : j = k
  · subst h; simp [State.key, Vector.get_eq_getElem]
  · have h' : k.val ≠ j.val := fun e => h (Fin.ext e.symm)
    simp [State.key, Vector.get_eq_getElem, h, h']

/-- A tick takes a timer down by one, never below zero. -/
theorem toNat_tickDown (t : Byte) : (tickDown t).toNat = t.toNat - 1 := by
  unfold tickDown
  split
  · rw [BitVec.toNat_sub_of_le (by simp [BitVec.le_def]; omega)]; rfl
  · omega

/-- What a latched fault says depends on `pc` and the stack alone. -/
theorem Fault.raisedIn_congr {s t : State} (hpc : t.pc = s.pc) (hstack : t.stack = s.stack) {f : Fault}
    (h : f.raisedIn s) : f.raisedIn t := by
  cases f <;> simp only [Fault.raisedIn, State.sp, hpc, hstack] at h ⊢ <;> exact h

end Sys2Proof.Machine
end

