-- ==== Sys2Proof/Laws/PerInstr.lean ====
section
/-! SUPPORT. Facts about every instruction as syntax, one lemma per constructor. -/

/-! ## The encoding of an instruction lies in its row of R96, and that row stands in the table -/

def Sys2Proof.Laws.EncodesInRow.Statement (i : Sys2Proof.Instr) : Prop :=
  i.row ∈ Sys2Proof.opcodeRows ∧ i.row.selects (Sys2Proof.encode i) = true

namespace Sys2Proof.Laws.EncodesInRow

open Sys2Proof

/-- The word of the layout NNN under the mask of its rows. -/
theorem mask_encodeNNN (n1 : Nibble) (nnn : Addr12) : encodeNNN n1 nnn &&& 0xF000#16 = encodeNNN n1 0 := by
  apply BitVec.eq_of_getLsbD_eq
  intro i hi
  simp only [BitVec.getLsbD_and, getLsbD_encodeNNN]
  interval_cases i <;> simp

/-- The word of the layout XNN under the mask of the rows with an immediate. -/
theorem mask_encodeXNN (n1 : Nibble) (x : Reg) (nn : Byte) : encodeXNN n1 x nn &&& 0xF000#16 = encodeXNN n1 0 0 := by
  apply BitVec.eq_of_getLsbD_eq
  intro i hi
  simp only [BitVec.getLsbD_and, getLsbD_encodeXNN]
  interval_cases i <;> simp [nibbleOfReg]

/-- The word of the layout X under the mask of its rows. -/
theorem mask_encodeX (n1 : Nibble) (x : Reg) (nn : Byte) : encodeXNN n1 x nn &&& 0xF0FF#16 = encodeXNN n1 0 nn := by
  apply BitVec.eq_of_getLsbD_eq
  intro i hi
  simp only [BitVec.getLsbD_and, getLsbD_encodeXNN]
  interval_cases i <;> simp [nibbleOfReg]

/-- The word of the layout XY under the mask of its rows. -/
theorem mask_encodeXY (n1 : Nibble) (x y : Reg) (n4 : Nibble) :
    encodeXYN n1 x y n4 &&& 0xF00F#16 = encodeXYN n1 0 0 n4 := by
  apply BitVec.eq_of_getLsbD_eq
  intro i hi
  simp only [BitVec.getLsbD_and, getLsbD_encodeXYN]
  interval_cases i <;> simp [nibbleOfReg]

/-- The word of the layout XYN under the mask of its row. -/
theorem mask_encodeXYN (n1 : Nibble) (x y : Reg) (n4 : Nibble) :
    encodeXYN n1 x y n4 &&& 0xF000#16 = encodeXYN n1 0 0 0 := by
  apply BitVec.eq_of_getLsbD_eq
  intro i hi
  simp only [BitVec.getLsbD_and, getLsbD_encodeXYN]
  interval_cases i <;> simp [nibbleOfReg]

theorem cls : Statement .cls := by
  exact ⟨by decide, by decide⟩

theorem ret : Statement .ret := by
  exact ⟨by decide, by decide⟩

theorem jp (nnn : Addr12) : Statement (.jp nnn) := by
  exact ⟨by simp only [Instr.row]; decide, by simp only [OpcodeRow.selects, Instr.row, encode, mask_encodeNNN]; decide⟩

theorem call (nnn : Addr12) : Statement (.call nnn) := by
  exact ⟨by simp only [Instr.row]; decide, by simp only [OpcodeRow.selects, Instr.row, encode, mask_encodeNNN]; decide⟩

theorem seImm (x : Reg) (nn : Byte) : Statement (.seImm x nn) := by
  exact ⟨by simp only [Instr.row]; decide, by simp only [OpcodeRow.selects, Instr.row, encode, mask_encodeXNN]; decide⟩

theorem sneImm (x : Reg) (nn : Byte) : Statement (.sneImm x nn) := by
  exact ⟨by simp only [Instr.row]; decide, by simp only [OpcodeRow.selects, Instr.row, encode, mask_encodeXNN]; decide⟩

theorem seReg (x y : Reg) : Statement (.seReg x y) := by
  exact ⟨by simp only [Instr.row]; decide, by simp only [OpcodeRow.selects, Instr.row, encode, mask_encodeXY]; decide⟩

theorem ldImm (x : Reg) (nn : Byte) : Statement (.ldImm x nn) := by
  exact ⟨by simp only [Instr.row]; decide, by simp only [OpcodeRow.selects, Instr.row, encode, mask_encodeXNN]; decide⟩

theorem addImm (x : Reg) (nn : Byte) : Statement (.addImm x nn) := by
  exact ⟨by simp only [Instr.row]; decide, by simp only [OpcodeRow.selects, Instr.row, encode, mask_encodeXNN]; decide⟩

theorem ldReg (x y : Reg) : Statement (.ldReg x y) := by
  exact ⟨by simp only [Instr.row]; decide, by simp only [OpcodeRow.selects, Instr.row, encode, mask_encodeXY]; decide⟩

theorem orReg (x y : Reg) : Statement (.orReg x y) := by
  exact ⟨by simp only [Instr.row]; decide, by simp only [OpcodeRow.selects, Instr.row, encode, mask_encodeXY]; decide⟩

theorem andReg (x y : Reg) : Statement (.andReg x y) := by
  exact ⟨by simp only [Instr.row]; decide, by simp only [OpcodeRow.selects, Instr.row, encode, mask_encodeXY]; decide⟩

theorem xorReg (x y : Reg) : Statement (.xorReg x y) := by
  exact ⟨by simp only [Instr.row]; decide, by simp only [OpcodeRow.selects, Instr.row, encode, mask_encodeXY]; decide⟩

theorem addReg (x y : Reg) : Statement (.addReg x y) := by
  exact ⟨by simp only [Instr.row]; decide, by simp only [OpcodeRow.selects, Instr.row, encode, mask_encodeXY]; decide⟩

theorem subReg (x y : Reg) : Statement (.subReg x y) := by
  exact ⟨by simp only [Instr.row]; decide, by simp only [OpcodeRow.selects, Instr.row, encode, mask_encodeXY]; decide⟩

theorem shr (x y : Reg) : Statement (.shr x y) := by
  exact ⟨by simp only [Instr.row]; decide, by simp only [OpcodeRow.selects, Instr.row, encode, mask_encodeXY]; decide⟩

theorem subnReg (x y : Reg) : Statement (.subnReg x y) := by
  exact ⟨by simp only [Instr.row]; decide, by simp only [OpcodeRow.selects, Instr.row, encode, mask_encodeXY]; decide⟩

theorem shl (x y : Reg) : Statement (.shl x y) := by
  exact ⟨by simp only [Instr.row]; decide, by simp only [OpcodeRow.selects, Instr.row, encode, mask_encodeXY]; decide⟩

theorem sneReg (x y : Reg) : Statement (.sneReg x y) := by
  exact ⟨by simp only [Instr.row]; decide, by simp only [OpcodeRow.selects, Instr.row, encode, mask_encodeXY]; decide⟩

theorem ldI (nnn : Addr12) : Statement (.ldI nnn) := by
  exact ⟨by simp only [Instr.row]; decide, by simp only [OpcodeRow.selects, Instr.row, encode, mask_encodeNNN]; decide⟩

theorem jpV0 (nnn : Addr12) : Statement (.jpV0 nnn) := by
  exact ⟨by simp only [Instr.row]; decide, by simp only [OpcodeRow.selects, Instr.row, encode, mask_encodeNNN]; decide⟩

theorem rnd (x : Reg) (nn : Byte) : Statement (.rnd x nn) := by
  exact ⟨by simp only [Instr.row]; decide, by simp only [OpcodeRow.selects, Instr.row, encode, mask_encodeXNN]; decide⟩

theorem drw (x y : Reg) (n : Nibble) : Statement (.drw x y n) := by
  exact ⟨by simp only [Instr.row]; decide, by simp only [OpcodeRow.selects, Instr.row, encode, mask_encodeXYN]; decide⟩

theorem skp (x : Reg) : Statement (.skp x) := by
  exact ⟨by simp only [Instr.row]; decide, by simp only [OpcodeRow.selects, Instr.row, encode, mask_encodeX]; decide⟩

theorem sknp (x : Reg) : Statement (.sknp x) := by
  exact ⟨by simp only [Instr.row]; decide, by simp only [OpcodeRow.selects, Instr.row, encode, mask_encodeX]; decide⟩

theorem ldVxDt (x : Reg) : Statement (.ldVxDt x) := by
  exact ⟨by simp only [Instr.row]; decide, by simp only [OpcodeRow.selects, Instr.row, encode, mask_encodeX]; decide⟩

theorem ldVxK (x : Reg) : Statement (.ldVxK x) := by
  exact ⟨by simp only [Instr.row]; decide, by simp only [OpcodeRow.selects, Instr.row, encode, mask_encodeX]; decide⟩

theorem ldDtVx (x : Reg) : Statement (.ldDtVx x) := by
  exact ⟨by simp only [Instr.row]; decide, by simp only [OpcodeRow.selects, Instr.row, encode, mask_encodeX]; decide⟩

theorem ldStVx (x : Reg) : Statement (.ldStVx x) := by
  exact ⟨by simp only [Instr.row]; decide, by simp only [OpcodeRow.selects, Instr.row, encode, mask_encodeX]; decide⟩

theorem addIVx (x : Reg) : Statement (.addIVx x) := by
  exact ⟨by simp only [Instr.row]; decide, by simp only [OpcodeRow.selects, Instr.row, encode, mask_encodeX]; decide⟩

theorem ldF (x : Reg) : Statement (.ldF x) := by
  exact ⟨by simp only [Instr.row]; decide, by simp only [OpcodeRow.selects, Instr.row, encode, mask_encodeX]; decide⟩

theorem ldB (x : Reg) : Statement (.ldB x) := by
  exact ⟨by simp only [Instr.row]; decide, by simp only [OpcodeRow.selects, Instr.row, encode, mask_encodeX]; decide⟩

theorem ldMemVx (x : Reg) : Statement (.ldMemVx x) := by
  exact ⟨by simp only [Instr.row]; decide, by simp only [OpcodeRow.selects, Instr.row, encode, mask_encodeX]; decide⟩

theorem ldVxMem (x : Reg) : Statement (.ldVxMem x) := by
  exact ⟨by simp only [Instr.row]; decide, by simp only [OpcodeRow.selects, Instr.row, encode, mask_encodeX]; decide⟩

end Sys2Proof.Laws.EncodesInRow
end

