-- ==== Sys2Proof/Laws/Step.lean ====
section
/-! SUPPORT. What each meaning with more than one path can do, in one lemma each, and what a step can do: a proof about
every step takes these cases instead of unfolding the meanings. -/

namespace Sys2Proof.Machine

/-! ## Meanings with more than one path -/

theorem execRet_cases (s : State) :
    (∃ v rest, s.stack = v :: rest ∧ execRet s = .next { s with pc := v, stack := rest }) ∨
      (s.stack = [] ∧ execRet s = .next { s with halted := some .stackUnderflow }) := by
  rcases hs : s.stack with _ | ⟨v, rest⟩
  · exact .inr ⟨rfl, by rw [execRet, pop_empty hs, ← hs]; rfl⟩
  · exact .inl ⟨v, rest, rfl, by rw [execRet, pop_cons hs]; rfl⟩

theorem execCall_cases (nnn : Addr12) (s : State) :
    (s.sp < 16 ∧ execCall nnn s = .next { s with pc := addrWord nnn, stack := s.pc :: s.stack }) ∨
      (16 ≤ s.sp ∧ execCall nnn s = .next { s with halted := some .stackOverflow }) := by
  rcases Nat.lt_or_ge s.sp 16 with h | h
  · exact .inl ⟨h, by rw [execCall, push_room _ h]; rfl⟩
  · exact .inr ⟨h, by rw [execCall, push_full _ h]; rfl⟩

theorem execSkp_cases (x : Reg) (s : State) :
    (∃ k : Key, k.val = (s.reg x).toNat ∧ execSkp x s = .next { s with pc := if s.key k then s.pc + 2 else s.pc }) ∨
      (15 < (s.reg x).toNat ∧ execSkp x s = .next { s with halted := some (.keyIndexOutOfRange (s.reg x)) }) := by
  rcases Nat.lt_or_ge (s.reg x).toNat 16 with h | h
  · exact .inl ⟨⟨_, h⟩, rfl, by simp only [execSkp, keyOperand_inside h, skipIf_eq]⟩
  · exact .inr ⟨h, by rw [execSkp, keyOperand_outside h]; rfl⟩

theorem execSknp_cases (x : Reg) (s : State) :
    (∃ k : Key, k.val = (s.reg x).toNat ∧ execSknp x s = .next { s with pc := if !s.key k then s.pc + 2 else s.pc }) ∨
      (15 < (s.reg x).toNat ∧ execSknp x s = .next { s with halted := some (.keyIndexOutOfRange (s.reg x)) }) := by
  rcases Nat.lt_or_ge (s.reg x).toNat 16 with h | h
  · exact .inl ⟨⟨_, h⟩, rfl, by simp only [execSknp, keyOperand_inside h, skipIf_eq]⟩
  · exact .inr ⟨h, by rw [execSknp, keyOperand_outside h]; rfl⟩

theorem execLdVxK_cases (x : Reg) (s : State) :
    (∃ k : Key, s.key k = true ∧ (∀ j, j < k → s.key j = false) ∧
      execLdVxK x s = .next { s.setReg x (keyByte k) with keyWaitLatch := some k }) ∨
      ((∀ k, s.key k = false) ∧ execLdVxK x s = .next { s with pc := s.pc - 2 }) := by
  cases hf : firstPressed s with
  | some k => exact .inl ⟨k, (firstPressed_lowest hf).1, (firstPressed_lowest hf).2, by rw [execLdVxK, hf]⟩
  | none => exact .inr ⟨firstPressed_eq_none.mp hf, by rw [execLdVxK, hf]; rfl⟩

theorem execDrw_cases (x y : Reg) (n : Nibble) (s : State) :
    ((n = 0 ∨ s.I.toNat + s.rowsOnScreen y n ≤ 4096) ∧ ∃ d hit, execDrw x y n s =
      .next ({ s with display := d, redrawPending := s.redrawPending || decide (1 ≤ n.toNat) }.setReg VF
        (flagByte hit))) ∨
      ((n ≠ 0 ∧ 4096 < s.I.toNat + s.rowsOnScreen y n) ∧ ∃ d, execDrw x y n s =
        .next { ({ s with display := d }.setReg VF (flagHalfDone s)).tickFree with
          halted := some (.dataAddressOutOfRange (max s.I.toNat 4096)) }) := by
  rcases drawRows_sprite x y n s with ⟨hin, d, hit, hd⟩ | ⟨hout, hd⟩
  · exact .inl ⟨hin, d, hit, by rw [execDrw, hd]⟩
  · obtain ⟨d, hx⟩ := drawHalfDone_eq x y n s
    exact .inr ⟨hout, d, by rw [execDrw, hd]; simp only [hx]; rfl⟩

theorem execLdB_cases (x : Reg) (s : State) :
    (s.I.toNat + 3 ≤ 4096 ∧ execLdB x s =
      .next { s with memory := s.memory.writeBytes s.I.toNat (decimalDigits (s.reg x)) }) ∨
      (4096 < s.I.toNat + 3 ∧ execLdB x s = .next { storeHalfDone s.I.toNat (decimalDigits (s.reg x)) s with
        halted := some (.dataAddressOutOfRange (max s.I.toNat 4096)) }) := by
  have hlen : (decimalDigits (s.reg x)).length = 3 := rfl
  rcases Nat.lt_or_ge 4096 (s.I.toNat + 3) with h | h
  · exact .inr ⟨h, by rw [execLdB, indexAddr, storeFrom_outside s (by omega) (by omega)]; rfl⟩
  · exact .inl ⟨h, by rw [execLdB, indexAddr, storeFrom_inside s (by omega)]⟩

theorem execLdMemVx_cases (x : Reg) (s : State) :
    (s.I.toNat + x + 1 ≤ 4096 ∧ execLdMemVx x s =
      .next { s with memory := s.memory.writeBytes s.I.toNat (regsThrough x s), I := indexAfter x s }) ∨
      (4096 < s.I.toNat + x + 1 ∧ execLdMemVx x s = .next { storeHalfDone s.I.toNat (regsThrough x s) s with
        halted := some (.dataAddressOutOfRange (max s.I.toNat 4096)) }) := by
  have hlen := length_regsThrough x s
  rcases Nat.lt_or_ge 4096 (s.I.toNat + x + 1) with h | h
  · exact .inr ⟨h, by rw [execLdMemVx, indexAddr, storeFrom_outside s (by omega) (by omega)]; rfl⟩
  · exact .inl ⟨h, by rw [execLdMemVx, indexAddr, storeFrom_inside s (by omega)]; rfl⟩

theorem execLdVxMem_cases (x : Reg) (s : State) :
    (s.I.toNat + x + 1 ≤ 4096 ∧ execLdVxMem x s =
      .next ((setRegs ((List.range (x + 1)).map (fun k => s.memory.read (s.I.toNat + k))) s).setI (indexAfter x s))) ∨
      (4096 < s.I.toNat + x + 1 ∧ execLdVxMem x s = .next { loadHalfDone s.I.toNat x s with
        halted := some (.dataAddressOutOfRange (max s.I.toNat 4096)) }) := by
  rcases Nat.lt_or_ge 4096 (s.I.toNat + x + 1) with h | h
  · exact .inr ⟨h, by rw [execLdVxMem, indexAddr, readFrom_outside s (by omega) (by omega)]; rfl⟩
  · exact .inl ⟨h, by rw [execLdVxMem, indexAddr, readFrom_inside s (by omega)]⟩

/-! ## The step -/

/-- Everything a step that gives a next state can have done. -/
theorem step_cases {s t : State} (h : step s = .next t) :
    s.halted = none ∧
      ((4094 < s.pc.toNat ∧ t = { s with halted := some (.fetchOutOfRange s.pc) }) ∨
        (s.pc.toNat ≤ 4094 ∧ ∃ op, fetch s = .ok op ∧
          ((∃ e, decode op = .error e ∧ t = { s with pc := s.pc + 2 }) ∨
            (∃ i, decode op = .ok i ∧ exec i { s with pc := s.pc + 2 } = .next t)))) := by
  unfold step at h
  split at h
  · simp [refuseHalted] at h
  · rename_i hh
    refine ⟨hh, ?_⟩
    rcases Nat.lt_or_ge 4094 s.pc.toNat with hp | hp
    · rw [fetch_outside hp] at h
      exact .inl ⟨hp, (Host.Outcome.next.inj h).symm⟩
    · rw [fetch_inside hp] at h
      refine .inr ⟨hp, _, fetch_inside hp, ?_⟩
      dsimp only at h
      split at h
      · rename_i e hd
        exact .inl ⟨e, hd, (Host.Outcome.next.inj h).symm⟩
      · rename_i i hd
        exact .inr ⟨i, hd, h⟩

end Sys2Proof.Machine
end

