-- ==== Sys2Proof/Tests/Slice0.lean ====
section
/-! SUPPORT. The model's own tests, each about one word or one operation on a small state, and for every statement with
hypotheses a state that meets them. The expected values are those of spec/95_test_vectors.md; each test names the
section or the vector it comes from. A framebuffer row is written as a number, bit x being the cell of column x. -/

namespace Sys2Proof.Tests

open Sys2Proof Sys2Proof.Machine

/-- The next state of an outcome. -/
def nextOf : Outcome → Option State
  | .next t => some t
  | .fault _ => none
  | .refused _ => none

/-- The launch state L0 of some words (spec/95_test_vectors.md section 0). -/
def launch (words : List Word) : State :=
  { State.reset with memory := State.reset.memory.writeBytes 512 (words.flatMap bytesOfWord) }

/-- What `f` reads of the state one step after `s`. -/
def stepped {α : Type} (s : State) (f : State → α) : Option α := (nextOf (step s)).map f

/-- `s` with some registers written. -/
def withRegs (s : State) (rs : List (Reg × Byte)) : State := rs.foldl (fun s r => s.setReg r.1 r.2) s

/-- `s` with some bytes at an address. -/
def withBytes (s : State) (a : Nat) (bytes : List Byte) : State := { s with memory := s.memory.writeBytes a bytes }

/-- `s` with some keys pressed. -/
def withKeys (s : State) (ks : List Key) : State := ks.foldl (fun s (k : Key) => { s with keypad := s.keypad.set k true }) s

/-- `s` with row y of the display set. -/
def withRow (s : State) (y : Fin 32) (row : PixelRow) : State := { s with display := s.display.set y row }

/-- Row y of the display. -/
def rowOf (s : State) (y : Fin 32) : PixelRow := s.display.get y

/-! ## WellFormed: each check refuses an ill-formed term -/

/-- T1 and section 2.1: near misses and a machine-code call are no instruction words. -/
theorem test_illformed_words :
    wordWellFormed 0x00F1#16 = false ∧ wordWellFormed 0x5CD1#16 = false ∧ wordWellFormed 0x8AB9#16 = false ∧
      wordWellFormed 0x0000#16 = false ∧ wordWellFormed 0x00E0#16 = true := by decide

/-- A Super-CHIP row (R101) stands in no table. -/
theorem test_illformed_row : OpcodeRow.wellFormed ⟨"SCR", 0xFFFF#16, 0x00FB#16⟩ = false := by decide

theorem test_wellformed_instruction : (Instr.drw 1 2 5#4).wellFormed = true := by decide

/-- R323: an image of 3585 bytes does not fit, one of 3584 does. -/
theorem test_illformed_image :
    imageWellFormed 3584 (List.replicate 3585 0) = false ∧ imageWellFormed 3584 (List.replicate 3584 0) = true := by
  exact ⟨decide_eq_false (by rw [List.length_replicate]; decide), decide_eq_true (by rw [List.length_replicate])⟩

/-- R262: key 16 does not exist. -/
theorem test_illformed_key : keyIndexWellFormed 16 16 = false ∧ keyIndexWellFormed 16 15 = true := by decide

/-- R96: the table has 34 rows, no two of one mnemonic. -/
theorem test_table_has_34_rows : opcodeRows.length = 34 ∧ (opcodeRows.map (·.mnemonic)).Nodup := by decide

/-- R6: the parameters take the values of its table. -/
theorem test_parameters :
    (params.memSize, params.fontBase, params.glyphBytes, params.fontBytes, params.progBase, params.progMax) =
      (4096, 0, 5, 80, 0x200, 3584) ∧
    (params.nregs, params.regBits, params.iBits, params.pcBits, params.timerBits, params.stackDepth, params.nkeys) =
      (16, 8, 16, 16, 8, 16, 16) ∧
    (params.dispW, params.dispH, params.instrBytes, params.lcgA, params.lcgC, params.lcgM, params.seedInit) =
      (64, 32, 2, 75, 74, 65536, 888) ∧
    (params.shiftSource, params.jumpOffsetReg, params.flagWriteLast, params.redrawInit) = (.vx, 0, true, false) :=
  ⟨rfl, rfl, rfl, rfl⟩

/-! ## Decode: a word of every constructor, written bit by bit from the patterns of R96 -/

theorem test_decode_control :
    decode 0b0000000011100000#16 = .ok .cls ∧ decode 0b0000000011101110#16 = .ok .ret ∧
      decode 0b0001001000110000#16 = .ok (.jp 0x230#12) ∧ decode 0b0010001100000000#16 = .ok (.call 0x300#12) ∧
      decode 0b1011010100010010#16 = .ok (.jpV0 0x512#12) := by decide

theorem test_decode_skips :
    decode 0b0011101001000010#16 = .ok (.seImm 10 0x42#8) ∧ decode 0b0100101001000010#16 = .ok (.sneImm 10 0x42#8) ∧
      decode 0b0101110011010000#16 = .ok (.seReg 12 13) ∧ decode 0b1001101010110000#16 = .ok (.sneReg 10 11) := by decide

theorem test_decode_loads :
    decode 0b0110101011111111#16 = .ok (.ldImm 10 0xFF#8) ∧ decode 0b0111001000001010#16 = .ok (.addImm 2 0x0A#8) ∧
      decode 0b1000001101000000#16 = .ok (.ldReg 3 4) ∧ decode 0b1010001011110000#16 = .ok (.ldI 0x2F0#12) := by decide

theorem test_decode_alu :
    decode 0b1000000100100001#16 = .ok (.orReg 1 2) ∧ decode 0b1000000100100010#16 = .ok (.andReg 1 2) ∧
      decode 0b1000000100100011#16 = .ok (.xorReg 1 2) ∧ decode 0b1000000000010100#16 = .ok (.addReg 0 1) ∧
      decode 0b1000000000010101#16 = .ok (.subReg 0 1) ∧ decode 0b1000010100010110#16 = .ok (.shr 5 1) ∧
      decode 0b1000101010110111#16 = .ok (.subnReg 10 11) ∧ decode 0b1000101010111110#16 = .ok (.shl 10 11) := by decide

theorem test_decode_random_and_display :
    decode 0b1100010111110000#16 = .ok (.rnd 5 0xF0#8) ∧ decode 0b1101000100100101#16 = .ok (.drw 1 2 5#4) := by decide

theorem test_decode_keys_and_timers :
    decode 0b1110000010011110#16 = .ok (.skp 0) ∧ decode 0b1110000110100001#16 = .ok (.sknp 1) ∧
      decode 0b1111001100001010#16 = .ok (.ldVxK 3) ∧ decode 0b1111010100000111#16 = .ok (.ldVxDt 5) ∧
      decode 0b1111010100010101#16 = .ok (.ldDtVx 5) ∧ decode 0b1111010100011000#16 = .ok (.ldStVx 5) := by decide

theorem test_decode_index :
    decode 0b1111000100011110#16 = .ok (.addIVx 1) ∧ decode 0b1111000000101001#16 = .ok (.ldF 0) ∧
      decode 0b1111001000110011#16 = .ok (.ldB 2) ∧ decode 0b1111001001010101#16 = .ok (.ldMemVx 2) ∧
      decode 0b1111000101100101#16 = .ok (.ldVxMem 1) := by decide

/-- Section 2.1: words that do not decode, each carried by its refusal. -/
theorem test_decode_refuses :
    [0x0000#16, 0x00E1#16, 0x00EF#16, 0x00F1#16, 0x00FD#16, 0x0123#16, 0x5CD1#16, 0x9AB1#16, 0x8AB8#16, 0x8AB9#16].map
      decode = [0x0000#16, 0x00E1#16, 0x00EF#16, 0x00F1#16, 0x00FD#16, 0x0123#16, 0x5CD1#16, 0x9AB1#16, 0x8AB8#16,
        0x8AB9#16].map (fun op => .error (.unknownOpcode op)) := by decide

theorem test_decode_refuses_EX_FX :
    [0x8ABD#16, 0x8ABF#16, 0xE09F#16, 0xE0A0#16, 0xF166#16, 0xF000#16, 0xF030#16, 0xF075#16, 0xF085#16].map decode =
      [0x8ABD#16, 0x8ABF#16, 0xE09F#16, 0xE0A0#16, 0xF166#16, 0xF000#16, 0xF030#16, 0xF075#16, 0xF085#16].map
        (fun op => .error (.unknownOpcode op)) := by decide

/-- The host's reading of a table word, and bytes in front of others. -/
theorem test_decode_bytes :
    decodeTableWord 16 0x6AFF = some (.ldImm 10 0xFF#8) ∧ decodeTableWord 16 0x00F1 = none ∧
      decodeBytes [0x12#8, 0x34#8, 0x56#8] = .ok (.jp 0x234#12, [0x56#8]) ∧
      decodeBytes [0x12#8] = .error (.truncated 1) := by decide

/-! ## The step -/

/-- Section 2.9: `UnknownOpcode(0x5CD1)`, then the core goes on. -/
theorem test_step_undecodable :
    stepped (launch [0x5CD1#16, 0x6A01#16]) (fun t => (t.pc, t.halted)) = some (0x202, none) ∧
      stepReport (launch [0x5CD1#16, 0x6A01#16]) = .unknownOpcode 0x5CD1#16 := by decide

/-- Section 2.9: the last word of memory, and `pc` = 4095. -/
theorem test_step_at_the_end_of_memory :
    stepped { withBytes State.reset 4094 [0x60, 0x11] with pc := 4094 } (fun t => (t.reg 0, t.pc)) = some (0x11, 4096) ∧
      stepped { State.reset with pc := 4095 } (fun t => (t.pc, t.halted)) =
        some (4095, some (.fetchOutOfRange 4095)) := by decide

/-- Section 2.2: an odd `pc` fetches the bytes at `pc` and `pc` + 1. -/
theorem test_step_odd_pc :
    stepped { withBytes State.reset 512 [0x12, 0x60, 0x55, 0x00] with pc := 0x201 } (fun t => (t.reg 0, t.pc)) =
      some (0x55, 0x203) := by decide

/-- Section 2.9: a halted core answers `Refused` and keeps its state. -/
theorem test_step_halted :
    stepped { State.reset with halted := some .stackUnderflow } (fun t => t.pc) = none ∧
      stepReport { State.reset with halted := some .stackUnderflow } = .refused .stackUnderflow := by decide

/-- A word placed for the next step is what it runs. -/
theorem test_step_placed_word :
    stepped (State.reset.withFetchWord 16 0x6AFF) (fun t => (t.reg 10, t.pc)) = some (0xFF, 0x202) := by decide

/-! ## Control flow (section 2.2, T5, T6) -/

theorem test_jp : stepped (launch [0x1FFF#16]) (fun t => t.pc) = some 0xFFF := by decide

theorem test_call :
    stepped { launch [0x2300#16] with stack := [] } (fun t => (t.sp, t.stack, t.pc)) = some (1, [0x202], 0x300) := by decide

theorem test_call_overflow :
    stepped { launch [0x2400#16] with stack := List.replicate 16 0xABC } (fun t => (t.sp, t.pc, t.halted)) =
      some (16, 0x202, some .stackOverflow) := by decide

/-- Entries 0x0ABC then 0x0FFF were pushed: the return takes the last. -/
theorem test_ret : stepped { launch [0x00EE#16] with stack := [0xFFF, 0xABC] } (fun t => (t.stack, t.pc)) =
    some ([0xABC], 0xFFF) := by decide

theorem test_ret_underflow :
    stepped (launch [0x00EE#16]) (fun t => (t.pc, t.halted)) = some (0x202, some .stackUnderflow) := by decide

/-- No reduction mod 4096. -/
theorem test_jpV0_unreduced : stepped (withRegs (launch [0xBFFF#16]) [(0, 0xFF)]) (fun t => t.pc) = some 0x10FE := by decide

/-- The offset is V0, not V5. -/
theorem test_jpV0_offset :
    stepped (withRegs (launch [0xB512#16]) [(0, 0x01), (5, 0x77)]) (fun t => t.pc) = some 0x513 := by decide

theorem test_seImm :
    stepped (withRegs (launch [0x3A42#16]) [(10, 0x42)]) (fun t => t.pc) = some 0x204 ∧
      stepped (withRegs (launch [0x3A42#16]) [(10, 0x41)]) (fun t => t.pc) = some 0x202 := by decide

theorem test_sneImm :
    stepped (withRegs (launch [0x4A42#16]) [(10, 0x42)]) (fun t => t.pc) = some 0x202 ∧
      stepped (withRegs (launch [0x4A42#16]) [(10, 0x41)]) (fun t => t.pc) = some 0x204 := by decide

theorem test_seReg :
    stepped (withRegs (launch [0x5120#16]) [(1, 7), (2, 7)]) (fun t => t.pc) = some 0x204 ∧
      stepped (withRegs (launch [0x5120#16]) [(1, 7), (2, 8)]) (fun t => t.pc) = some 0x202 := by decide

theorem test_sneReg :
    stepped (withRegs (launch [0x9120#16]) [(1, 7), (2, 7)]) (fun t => t.pc) = some 0x202 ∧
      stepped (withRegs (launch [0x9120#16]) [(1, 7), (2, 8)]) (fun t => t.pc) = some 0x204 := by decide

/-! ## Registers and arithmetic (section 2.3, T4, T8) -/

theorem test_ldImm_VF : stepped (withRegs (launch [0x6F07#16]) [(15, 1)]) (fun t => t.reg 15) = some 7 := by decide

theorem test_addImm_wraps :
    stepped (withRegs (launch [0x720A#16]) [(2, 0xFA), (15, 1)]) (fun t => (t.reg 2, t.reg 15)) = some (4, 1) := by decide

theorem test_ldReg : stepped (withRegs (launch [0x8340#16]) [(4, 0x99)]) (fun t => (t.reg 3, t.reg 4)) =
    some (0x99, 0x99) := by decide

theorem test_or :
    stepped (withRegs (launch [0x8121#16]) [(1, 0x0F), (2, 0xF0), (15, 1)]) (fun t => (t.reg 1, t.reg 15)) =
      some (0xFF, 0) ∧
    stepped (withRegs (launch [0x8F11#16]) [(15, 0x0F), (1, 0xF0)]) (fun t => t.reg 15) = some 0 := by decide

theorem test_and :
    stepped (withRegs (launch [0x8122#16]) [(1, 0x3C), (2, 0x0F), (15, 1)]) (fun t => (t.reg 1, t.reg 15)) =
      some (0x0C, 0) := by decide

theorem test_xor :
    stepped (withRegs (launch [0x8123#16]) [(1, 0xFF), (2, 0x0F), (15, 1)]) (fun t => (t.reg 1, t.reg 15)) =
      some (0xF0, 0) := by decide

theorem test_add_carry :
    stepped (withRegs (launch [0x8014#16]) [(0, 0xFE), (1, 0x03)]) (fun t => (t.reg 0, t.reg 15)) = some (1, 1) ∧
      stepped (withRegs (launch [0x8014#16]) [(0, 0x80), (1, 0x7F), (15, 1)]) (fun t => (t.reg 0, t.reg 15)) =
        some (0xFF, 0) := by decide

/-- The flag is written last, and VF as the second operand is read first. -/
theorem test_add_VF :
    stepped (withRegs (launch [0x8F14#16]) [(15, 0xF0), (1, 0x20)]) (fun t => t.reg 15) = some 1 ∧
      stepped (withRegs (launch [0x81F4#16]) [(1, 0xFF), (15, 1)]) (fun t => (t.reg 1, t.reg 15)) = some (0, 1) := by decide

theorem test_sub :
    stepped (withRegs (launch [0x8015#16]) [(0, 5), (1, 3)]) (fun t => (t.reg 0, t.reg 15)) = some (2, 1) ∧
      stepped (withRegs (launch [0x8015#16]) [(0, 0), (1, 1), (15, 1)]) (fun t => (t.reg 0, t.reg 15)) =
        some (0xFF, 0) := by decide

theorem test_sub_equal :
    stepped (withRegs (launch [0x8015#16]) [(0, 7), (1, 7)]) (fun t => (t.reg 0, t.reg 15)) = some (0, 1) := by decide

theorem test_subn :
    stepped (withRegs (launch [0x8017#16]) [(0, 3), (1, 5)]) (fun t => (t.reg 0, t.reg 15)) = some (2, 1) ∧
      stepped (withRegs (launch [0x8017#16]) [(0, 5), (1, 3), (15, 1)]) (fun t => (t.reg 0, t.reg 15)) =
        some (0xFE, 0) := by decide

theorem test_shr :
    stepped (withRegs (launch [0x8516#16]) [(5, 0x04), (1, 0xFF)]) (fun t => (t.reg 5, t.reg 15, t.reg 1)) =
      some (2, 0, 0xFF) ∧
    stepped (withRegs (launch [0x8506#16]) [(5, 0xFF)]) (fun t => (t.reg 5, t.reg 15)) = some (0x7F, 1) := by decide

/-- The other setting of SHIFT_SOURCE. -/
theorem test_shr_from_VY :
    (nextOf (shrFrom .vy 5 1 (withRegs State.reset [(5, 0x04), (1, 0xFF)]))).map (fun t => (t.reg 5, t.reg 15, t.reg 1)) =
      some (0x7F, 1, 0xFF) := by decide

theorem test_shl :
    stepped (withRegs (launch [0x850E#16]) [(5, 0x81)]) (fun t => (t.reg 5, t.reg 15)) = some (2, 1) ∧
      stepped (withRegs (launch [0x850E#16]) [(5, 0x7F), (15, 1)]) (fun t => (t.reg 5, t.reg 15)) = some (0xFE, 0) := by
  decide

theorem test_shl_from_VY :
    (nextOf (shlFrom .vy 5 1 (withRegs State.reset [(5, 0x04), (1, 0xC0)]))).map (fun t => (t.reg 5, t.reg 15)) =
      some (0x80, 1) := by decide

/-! ## Random (section 2.4, T11) -/

theorem test_rnd : stepped (launch [0xC00F#16]) (fun t => (t.seed, t.reg 0)) = some (1138, 2) := by decide

/-- The seed advances with a zero mask, and 65535 is a fixed point. -/
theorem test_rnd_corners :
    stepped (launch [0xC000#16]) (fun t => (t.seed, t.reg 0)) = some (1138, 0) ∧
      stepped { launch [0xC0FF#16] with seed := 65535 } (fun t => (t.seed, t.reg 0)) = some (65535, 0xFF) := by decide

/-! ## Display (section 2.5, T9) -/

theorem test_cls :
    stepped (withRegs (withRow (launch [0x00E0#16]) 0 0xF) [(15, 1)])
      (fun t => (rowOf t 0, t.reg 15, t.redrawPending)) = some (0, 1, true) := by decide

/-- A collision at cell 3; the start wraps and the sprite is clipped at the right edge; VF as a coordinate is read before
it is written. -/
theorem test_drw_cells :
    stepped { withBytes (withRow (launch [0xD011#16]) 0 0x8) 0x300 [0xF0] with I := 0x300 }
      (fun t => (rowOf t 0, t.reg 15, t.redrawPending)) = some (0x7, 1, true) ∧
    stepped { withRegs (withBytes (launch [0xD121#16]) 0x300 [0xFF]) [(1, 124), (2, 32)] with I := 0x300 }
      (fun t => (rowOf t 0, rowOf t 1, t.reg 15)) = some (0xF000000000000000, 0, 0) ∧
    stepped { withRegs (withBytes (launch [0xDF01#16]) 0x300 [0x80]) [(15, 5)] with I := 0x300 }
      (fun t => (rowOf t 0, t.reg 15)) = some (0x20, 0) := by decide

/-- A clipped row is not read; a row on screen at 4096 is fatal. -/
theorem test_drw_end_of_memory :
    stepped { withRegs (withBytes (launch [0xD012#16]) 0xFFF [0x80]) [(1, 31)] with I := 0xFFF }
      (fun t => (rowOf t 31, t.halted)) = some (1, none) ∧
    stepped { launch [0xD002#16] with I := 0xFFF } (fun t => (t.halted, t.pc)) =
      some (some (.dataAddressOutOfRange 4096), 0x202) := by decide

/-! ## Input (section 2.6, T10) -/

theorem test_skp :
    stepped (withKeys (withRegs (launch [0xE49E#16]) [(4, 0x0A)]) [10]) (fun t => t.pc) = some 0x204 ∧
      stepped (withKeys (withRegs (launch [0xE49E#16]) [(4, 0x1A)]) [10]) (fun t => (t.pc, t.halted)) =
        some (0x202, some (.keyIndexOutOfRange 0x1A)) := by decide

theorem test_sknp :
    stepped (withKeys (withRegs (launch [0xE4A1#16]) [(4, 0x0A)]) [10]) (fun t => t.pc) = some 0x202 ∧
      stepped (withRegs (launch [0xE4A1#16]) [(4, 0x0A)]) (fun t => t.pc) = some 0x204 := by decide

theorem test_ldVxK_lowest :
    stepped (withKeys (launch [0xF30A#16]) [7, 2]) (fun t => (t.reg 3, t.keyWaitLatch, t.pc)) =
      some (2, some 2, 0x202) := by decide

theorem test_ldVxK_waits :
    stepped { launch [0xF30A#16] with keyWaitLatch := some 3 } (fun t => (t.reg 3, t.keyWaitLatch, t.pc)) =
      some (0, some 3, 0x200) := by decide

/-! ## Timers (section 2.7, T7) -/

theorem test_ldVxDt : stepped { launch [0xF507#16] with DT := 0x2A } (fun t => (t.reg 5, t.DT)) = some (0x2A, 0x2A) := by
  decide

theorem test_ldDtVx : stepped (withRegs (launch [0xF515#16]) [(5, 0xFF)]) (fun t => (t.DT, t.ST)) = some (255, 0) := by
  decide

theorem test_ldStVx : stepped (withRegs (launch [0xF518#16]) [(5, 3)]) (fun t => (t.DT, t.ST)) = some (0, 3) := by decide

theorem test_tick :
    (tickTimer { State.reset with DT := 3, ST := 1 }).DT = 2 ∧ (tickTimer { State.reset with DT := 3, ST := 1 }).ST = 0 ∧
      (tickTimer { State.reset with DT := 1, ST := 0 }).ST = 0 := by decide

/-! ## Index register and memory (section 2.8) -/

theorem test_ldI : stepped { launch [0xAFFF#16] with I := 0xFFFF } (fun t => t.I) = some 0x0FFF := by decide

theorem test_addIVx_wraps :
    stepped { withRegs (launch [0xF11E#16]) [(1, 2)] with I := 0xFFFF } (fun t => (t.I, t.reg 15)) = some (1, 0) := by decide

theorem test_ldF : stepped (withRegs (launch [0xF029#16]) [(0, 0x1A)]) (fun t => t.I) = some 50 := by decide

theorem test_ldB :
    stepped { withRegs (launch [0xF233#16]) [(2, 156)] with I := 0x300 }
      (fun t => (t.memory.read 0x300, t.memory.read 0x301, t.memory.read 0x302, t.I)) = some (1, 5, 6, 0x300) := by decide

theorem test_ldB_end_of_memory :
    stepped { withRegs (launch [0xF233#16]) [(2, 123)] with I := 4093 } (fun t => (t.memory.read 4095, t.halted)) =
      some (3, none) ∧
    stepped { launch [0xF233#16] with I := 0xFFFF } (fun t => t.halted) = some (some (.dataAddressOutOfRange 65535)) := by
  decide

theorem test_ldMemVx :
    stepped { withRegs (launch [0xF255#16]) [(0, 0x11), (1, 0x22), (2, 0x33), (3, 0x44)] with I := 0x300 }
      (fun t => (t.memory.read 0x300, t.memory.read 0x302, t.memory.read 0x303, t.I)) =
      some (0x11, 0x33, 0, 0x303) := by decide

/-- The font area is ordinary memory; the first address outside memory is fatal. -/
theorem test_ldMemVx_bounds :
    stepped (launch [0xF055#16]) (fun t => (t.memory.read 0, t.memory.wf, t.I)) = some (0, true, 1) ∧
      stepped { launch [0xF255#16] with I := 4094 } (fun t => (t.halted, t.I)) =
        some (some (.dataAddressOutOfRange 4096), 4094) := by decide

/-- The whole register file from the font. -/
theorem test_ldVxMem_font :
    stepped (launch [0xFF65#16]) (fun t => (t.V.toList, t.I)) =
      some ([0xF0, 0x90, 0x90, 0x90, 0xF0, 0x20, 0x60, 0x20, 0x20, 0x70, 0xF0, 0x10, 0xF0, 0x80, 0xF0, 0xF0], 16) := by
  decide

theorem test_ldVxMem_bounds :
    stepped { withBytes (launch [0xF165#16]) 4094 [7, 8] with I := 4094 } (fun t => (t.reg 0, t.reg 1, t.I)) =
      some (7, 8, 4096) ∧
    stepped { launch [0xF165#16] with I := 4095 } (fun t => (t.halted, t.I)) =
      some (some (.dataAddressOutOfRange 4096), 4095) := by decide

/-! ## Memory's form, and the host's operations (T2, T3, section 2.9) -/

/-- Writing what an unlisted address reads as takes the entry out; entries stand in order. -/
theorem test_memory_form :
    ((Memory.write [] 600 5).write 550 7) = [(550, 7), (600, 5)] ∧ ((Memory.write [] 600 5).write 600 0) = [] ∧
      Memory.write [] 4 0xF0 = [] ∧ Memory.wf [(600, 5), (550, 7)] = false ∧ Memory.wf [(600, 0)] = false ∧
      Memory.wf [(4096, 1)] = false := by decide

theorem test_font : (List.range 6).map State.reset.memory.read = [0xF0, 0x90, 0x90, 0x90, 0xF0, 0x20] := by decide

theorem test_load_program :
    (nextOf (loadProgram [0x12, 0x34, 0x56] State.reset)).map (fun t => (List.range 4).map (fun k => t.memory.read (512 + k))) =
      some [0x12, 0x34, 0x56, 0] := by decide

theorem test_set_key :
    (nextOf (setKey 3 true State.reset)).map (fun t => (t.key 3, t.key 2)) = some (true, false) ∧
      (nextOf (setKey 16 true State.reset)).isNone = true := by decide

/-- The host works on a halted core; `reset` clears the latch and the keys. -/
theorem test_halted_host :
    (runSchedule 888 [.setKey 3 true, .step] { State.reset with halted := some .stackUnderflow }).key 3 = true ∧
      (runSchedule 888 [.setKey 3 true, .reset] { State.reset with halted := some .stackUnderflow }) = State.reset := by
  decide

theorem test_read_display : readDisplay (withRow State.reset 31 0x8000000000000000) 2047 = true ∧
    readDisplay (withRow State.reset 31 0x8000000000000000) 2046 = false := by decide

theorem test_causes : causeCode (.unknownOpcode 0x0000#16) = some 1 ∧ causeCode (.fatal (.keyIndexOutOfRange 16)) = some 6 ∧
    causeCode .ok = none := by decide

/-! ## Witnesses: for each statement with hypotheses, a state and operands that meet them, one per clause -/

theorem witness_EncodeOfDecodedWordIsTheWord : ∃ i, decode 0x8AB6#16 = .ok i := ⟨.shr 10 11, by decide⟩

theorem witness_WordDecodesExactlyWhenOneRowSelectsIt :
    (∃ i, decode 0xF165#16 = .ok i) ∧ (∃ r ∈ opcodeRows, r.selects 0xF165#16 = true) ∧
      wordWellFormed 0x8ABE#16 = true ∧ wordWellFormed 0x8ABF#16 = false :=
  ⟨⟨.ldVxMem 1, by decide⟩, ⟨⟨"LD_VX___I", 0xF0FF#16, 0xF065#16⟩, by decide, by decide⟩, by decide, by decide⟩

/-- At the last word of memory: a CALL that completes, and one that latches a fault. -/
theorem witness_StepRunsTheDecodedInstruction :
    (∃ (s t : State) (i : Instr), s.halted = none ∧ s.pc.toNat = 4094 ∧
      decode (s.memory.read s.pc.toNat ++ s.memory.read (s.pc.toNat + 1)) = .ok i ∧ step s = .next t ∧ t.halted = none) ∧
    (∃ (s t : State) (i : Instr) (f : Fault), s.halted = none ∧ s.pc.toNat = 4094 ∧
      decode (s.memory.read s.pc.toNat ++ s.memory.read (s.pc.toNat + 1)) = .ok i ∧ step s = .next t ∧
      t.halted = some f) := by
  constructor
  · exact ⟨{ State.reset with memory := [(4094, 0x23), (4095, 0x45)], pc := 4094 }, _, .call 0x345, by decide, by decide,
      by decide, rfl, by decide⟩
  · exact ⟨{ State.reset with memory := [(4095, 0xEE)], pc := 4094 }, _, .ret, .stackUnderflow, by decide, by decide,
      by decide, rfl, by decide⟩

theorem witness_UndecodableWordOnlyAdvancesPc :
    ∃ (s : State) (e : DecodeError), s.halted = none ∧ s.pc.toNat = 4094 ∧
      decode (s.memory.read s.pc.toNat ++ s.memory.read (s.pc.toNat + 1)) = .error e :=
  ⟨{ State.reset with pc := 4094 }, .unknownOpcode 0x0000#16, by decide, by decide, by decide⟩

theorem witness_FetchAbove4094OnlyLatches : ∃ s : State, s.halted = none ∧ s.pc.toNat = 4095 :=
  ⟨{ State.reset with pc := 4095 }, by decide, by decide⟩

theorem witness_HaltedCoreRefusesToStep : ∃ (s : State) (f : Fault), s.halted = some f :=
  ⟨{ State.reset with halted := some .stackOverflow }, .stackOverflow, rfl⟩

theorem witness_FetchIsBigEndian : ∃ s : State, s.pc.toNat = 4094 := ⟨{ State.reset with pc := 4094 }, by decide⟩

theorem witness_ReturnPopsOrUnderflows :
    (∃ (s : State) (v : Word), s.stack = [v]) ∧ (∃ s : State, s.stack = []) :=
  ⟨⟨{ State.reset with stack := [0x202] }, 0x202, rfl⟩, ⟨State.reset, rfl⟩⟩

theorem witness_CallPushesOrOverflows :
    { State.reset with stack := List.replicate 15 0x202 }.sp = 15 ∧
      { State.reset with stack := List.replicate 16 0x202 }.sp = 16 := by decide

theorem witness_ReturnGoesBackAfterTheCall :
    ∃ (nnn : Addr12) (s t u : State), s.sp = 15 ∧ exec (.call nnn) s = .next t ∧ u.stack = t.stack :=
  ⟨0x300, { State.reset with stack := List.replicate 15 0x202 }, _, _, by decide, rfl, rfl⟩

/-- A destination that is not VF, and one that is not its neighbour. -/
theorem witness_destinations : (14 : Reg) ≠ VF ∧ (0 : Reg) ≠ VF ∧ (0 : Reg) ≠ 14 := by decide

theorem witness_OnlyRandomChangesTheSeed :
    (∃ s t : State, (∀ x nn, Instr.cls ≠ .rnd x nn) ∧ exec .cls s = .next t) ∧
      (HostOp.tickTimer ≠ .step ∧ HostOp.tickTimer ≠ .reset) :=
  ⟨⟨State.reset, _, by simp, rfl⟩, by simp⟩

/-- Two rows at the last two bytes of memory; three rows there on the last two lines, the third clipped; and N = 0. -/
theorem witness_DrawXorsTheSpriteCellByCell :
    (∃ (y : Reg) (n : Nibble) (s : State), n ≠ 0 ∧ s.I.toNat + s.rowsOnScreen y n = 4096) ∧
    (∃ (y : Reg) (n : Nibble) (s : State), s.rowsOnScreen y n < n.toNat ∧ s.I.toNat + s.rowsOnScreen y n = 4096) ∧
    (∃ (n : Nibble) (s : State), n = 0 ∧ s.I.toNat = 65535) :=
  ⟨⟨1, 2, { State.reset with I := 4094 }, by decide, by decide⟩,
    ⟨1, 3, { withRegs State.reset [(1, 30)] with I := 4094 }, by decide, by decide⟩,
    ⟨0, { State.reset with I := 65535 }, rfl, by decide⟩⟩

/-- Glyph 0 on a blank display: no lit cell under it. -/
theorem witness_DrawingTwiceRestoresTheDisplay :
    ∃ (x y : Reg) (n : Nibble) (s : State), x ≠ VF ∧ y ≠ VF ∧ n ≠ 0 ∧ s.I.toNat + s.rowsOnScreen y n ≤ 4096 ∧
      (∀ cx cy, s.spriteLights x y n cx cy = true → s.cell cx cy = false) ∧ s.spriteLights x y n 0 0 = true :=
  ⟨0, 1, 5, State.reset, by decide, by decide, by decide, by decide,
    fun cx cy _ => by simp [State.cell, State.reset, Vector.get_eq_getElem], by decide⟩

/-- One byte too far, with a cell of each kind that must not change. -/
theorem witness_DrawBeyondMemoryLatches :
    ∃ (x y : Reg) (n : Nibble) (s : State), n ≠ 0 ∧ s.I.toNat + s.rowsOnScreen y n = 4097 ∧
      (8 ≤ (63 : Fin 64).val ∧ s.I.toNat + ((0 : Fin 32).val - (s.reg y).toNat % 32) < 4096 ∧
        s.spriteLights x y n 0 0 = false) :=
  ⟨0, 1, 2, { State.reset with I := 4095 }, by decide, by decide, by decide, by decide, by decide⟩

theorem witness_KeySkipsTestTheNamedKey :
    (∃ (s : State) (k : Key), (s.reg 0).toNat = k.val ∧ k.val = 15) ∧ (∃ s : State, (s.reg 0).toNat = 16) :=
  ⟨⟨withRegs State.reset [(0, 15)], 15, by decide, by decide⟩, ⟨withRegs State.reset [(0, 16)], by decide⟩⟩

theorem witness_KeyWaitTakesTheLowestPressedKey :
    (∃ (s : State) (k : Key), s.key k = true ∧ ∀ j, j < k → s.key j = false) ∧
      (∃ s : State, ∀ k, s.key k = false) :=
  ⟨⟨withKeys State.reset [15], 15, by decide, by decide⟩, ⟨State.reset, by decide⟩⟩

theorem witness_KeyWaitWithoutAKeyChangesNothing :
    ∃ (x : Reg) (s : State), s.halted = none ∧ s.pc.toNat = 4094 ∧
      decode (s.memory.read s.pc.toNat ++ s.memory.read (s.pc.toNat + 1)) = .ok (.ldVxK x) ∧ ∀ k, s.key k = false :=
  ⟨3, { State.reset with memory := [(4094, 0xF3), (4095, 0x0A)], pc := 4094 }, by decide, by decide, by decide, by decide⟩

theorem witness_StepLeavesTimersKeysAndRedraw :
    ∃ s t : State, step s = .next t ∧ s.redrawPending = true :=
  ⟨{ State.reset with redrawPending := true }, _, rfl, rfl⟩

/-- The last place a byte triple fits, and the ends of memory. -/
theorem witness_DecimalDigitsAreStored : ∃ s : State, s.I.toNat + 2 = 4095 ∧ 4092 < s.I.toNat ∧ s.I.toNat + 2 < 4096 :=
  ⟨{ State.reset with I := 4093 }, by decide⟩

/-- The last place V0..VX fit; a register inside and one outside the range. -/
theorem witness_bulk_inside :
    ∃ (x : Reg) (s : State), s.I.toNat + x.val = 4095 ∧ (2 : Reg) ≤ x ∧ x < (3 : Reg) ∧ 4092 < s.I.toNat :=
  ⟨2, { State.reset with I := 4093 }, by decide⟩

/-- The first place the bytes do not fit, for each store and for the load, with a register whose byte has an address. -/
theorem witness_bulk_outside :
    (∃ s : State, s.I.toNat + 2 = 4096) ∧
      (∃ (x : Reg) (s : State), s.I.toNat + x.val = 4096 ∧ (1 : Reg) ≤ x ∧ s.I.toNat + (1 : Reg).val ≤ 4095 ∧
        x < (3 : Reg)) :=
  ⟨⟨{ State.reset with I := 4094 }, by decide⟩, ⟨2, { State.reset with I := 4094 }, by decide⟩⟩

theorem witness_BulkLoadInvertsBulkStore :
    ∃ (x : Reg) (s t : State), s.I.toNat + x.val ≤ 4095 ∧ exec (.ldMemVx x) s = .next t :=
  ⟨0, State.reset, _, by decide, rfl⟩

theorem witness_OnlyTheStoresChangeMemory :
    ∃ s t : State, (∀ x, Instr.cls ≠ .ldB x) ∧ (∀ x, Instr.cls ≠ .ldMemVx x) ∧ exec .cls s = .next t :=
  ⟨State.reset, _, by simp, by simp, rfl⟩

/-- At the last word of memory: a bulk store of both bytes, of the second only, of the first only, and digits over both. -/
theorem witness_StoredWordIsFetchedNext :
    (∃ (x : Reg) (s : State), s.pc.toNat = 4094 ∧ s.I.toNat + x.val = 4095 ∧ s.pc.toNat = s.I.toNat + (0 : Reg).val ∧
      s.pc.toNat + 1 = s.I.toNat + x.val) ∧
    (∃ (x : Reg) (s : State), s.pc.toNat = 4094 ∧ s.I.toNat + x.val = 4095 ∧ s.pc.toNat < s.I.toNat) ∧
    (∃ (x : Reg) (s : State), s.pc.toNat = 4094 ∧ s.I.toNat + x.val < s.pc.toNat + 1 ∧
      s.pc.toNat = s.I.toNat + x.val) ∧
    (∃ s : State, s.pc.toNat = 4094 ∧ s.I.toNat + 2 = 4095 ∧ s.pc.toNat = s.I.toNat + 1) :=
  ⟨⟨1, { State.reset with I := 4094, pc := 4094 }, by decide⟩, ⟨0, { State.reset with I := 4095, pc := 4094 }, by decide⟩,
    ⟨0, { State.reset with I := 4094, pc := 4094 }, by decide⟩, ⟨{ State.reset with I := 4093, pc := 4094 }, by decide⟩⟩

theorem witness_CanonicalMemoriesThatReadAlikeAreEqual :
    ∃ m k : Memory, m.wf = true ∧ k.wf = true ∧ ∀ a, m.read a = k.read a :=
  ⟨[(0, 1), (4095, 1)], [(0, 1), (4095, 1)], by decide, by decide, fun _ => rfl⟩

/-- Each fault that an instruction raises, from a state with a clear latch. -/
theorem witness_faults :
    (∃ s t : State, s.halted = none ∧ exec (.call 0) s = .next t ∧ t.halted = some .stackOverflow) ∧
    (∃ s t : State, s.halted = none ∧ exec .ret s = .next t ∧ t.halted = some .stackUnderflow) ∧
    (∃ s t : State, s.halted = none ∧ exec (.ldB 0) s = .next t ∧ t.halted = some (.dataAddressOutOfRange 4096)) ∧
    (∃ s t : State, s.halted = none ∧ exec (.ldMemVx 1) s = .next t ∧ t.halted = some (.dataAddressOutOfRange 4096)) ∧
    (∃ s t : State, s.halted = none ∧ exec (.ldVxMem 1) s = .next t ∧ t.halted = some (.dataAddressOutOfRange 4096)) ∧
    (∃ s t : State, s.halted = none ∧ exec (.drw 0 1 2) s = .next t ∧ t.halted = some (.dataAddressOutOfRange 4096)) ∧
    (∃ s t : State, s.halted = none ∧ exec (.skp 0) s = .next t ∧ t.halted = some (.keyIndexOutOfRange 16)) :=
  ⟨⟨{ State.reset with stack := List.replicate 16 0x202 }, _, rfl, rfl, rfl⟩, ⟨State.reset, _, rfl, rfl, rfl⟩,
    ⟨{ State.reset with I := 4094 }, _, rfl, rfl, rfl⟩, ⟨{ State.reset with I := 4095 }, _, rfl, rfl, rfl⟩,
    ⟨{ State.reset with I := 4095 }, _, rfl, rfl, rfl⟩, ⟨{ State.reset with I := 4095 }, _, rfl, rfl, rfl⟩, ⟨withRegs State.reset [(0, 16)], _, rfl, rfl, by decide⟩⟩

theorem witness_FatalFaultLatchesUntilReset :
    ∃ (ops : List HostOp) (s : State) (f : Fault), s.halted = some f ∧ HostOp.reset ∉ ops ∧ HostOp.step ∈ ops :=
  ⟨[.step, .tickTimer, .loadFont], { State.reset with halted := some .stackOverflow }, .stackOverflow, rfl, by decide,
    by decide⟩

/-- The reset state meets the invariant and steps. -/
theorem witness_StepKeepsTheInvariant : ∃ s t : State, s.Inv ∧ step s = .next t :=
  ⟨State.reset, _, ⟨rfl, by decide, by simp [State.reset], by decide, by simp [State.reset]⟩, rfl⟩

theorem witness_HostSchedulesKeepTheInvariant : ∃ s : State, s.Inv :=
  ⟨{ State.reset with pc := 4095, halted := some (.fetchOutOfRange 4095) },
    ⟨rfl, by decide, by simp [State.reset], by decide, by simp [Fault.raisedIn]⟩⟩

theorem witness_LoadProgramCopiesVerbatim :
    (∃ image : List Byte, image.length = 3584) ∧ (∃ image : List Byte, image.length = 3585) :=
  ⟨⟨List.replicate 3584 0, List.length_replicate⟩, ⟨List.replicate 3585 0, List.length_replicate⟩⟩

theorem witness_SetKeyAndAcknowledge : (∃ k : Key, k.val = 15 ∧ (0 : Key) ≠ k) ∧ (15 < 16) := by decide

theorem witness_DisplayIsReadRowMajor :
    ∃ (cx : Fin 64) (cy : Fin 32) (index : Fin 2048), index.val = cx.val + 64 * cy.val ∧ index.val = 2047 :=
  ⟨63, 31, 2047, by decide, by decide⟩

end Sys2Proof.Tests
end

/-! ## Proofs about memory (spec/20_memory.md) -/

namespace Sys2Proof.Machine

/-- A word put together from two bytes is the number whose high digit in base 256 is the first byte (R62). -/
theorem toNat_wordOfBytes (hi lo : Byte) : (wordOfBytes hi lo).toNat = hi.toNat * 256 + lo.toNat := by
  have append_is_sum : hi.toNat <<< 8 + lo.toNat = hi.toNat <<< 8 ||| lo.toNat :=
    Nat.shiftLeft_add_eq_or_of_lt lo.isLt hi.toNat
  rw [wordOfBytes, BitVec.toNat_append, ← append_is_sum, Nat.shiftLeft_eq]

/-- Settles O10: up to 4094 both bytes lie in memory, so the fetch answers the word put together from them, and that
word is the high byte times 256 plus the low byte. -/
theorem fetchIsBigEndian : Obligations.FetchIsBigEndian := by
  intro s hpc
  exact ⟨_, fetch_inside hpc, toNat_wordOfBytes _ _⟩

end Sys2Proof.Machine

/-! ## Proofs about the step cycle (spec/40_step_cycle.md) -/

namespace Sys2Proof.Machine

/-! ### A step from a state that can fetch, by what the word at `pc` decodes to -/

theorem step_decoded {s : State} {i : Instr} (clear : s.halted = none) (hpc : s.pc.toNat ≤ 4094)
    (hdec : decode (s.memory.read s.pc.toNat ++ s.memory.read (s.pc.toNat + 1)) = .ok i) :
    step s = exec i { s with pc := s.pc + 2 } := by
  simp only [step, clear, fetch_inside hpc, hdec, advance_eq]

/-- A step that executes an instruction reports what its outcome says (R125). -/
theorem stepReport_decoded {s : State} {i : Instr} (clear : s.halted = none) (hpc : s.pc.toNat ≤ 4094)
    (hdec : decode (s.memory.read s.pc.toNat ++ s.memory.read (s.pc.toNat + 1)) = .ok i) :
    stepReport s = reportOf (step s) := by
  rw [step_decoded clear hpc hdec]
  simp only [stepReport, clear, fetch_inside hpc, hdec, advance_eq]

theorem step_undecodable {s : State} {e : DecodeError} (clear : s.halted = none) (hpc : s.pc.toNat ≤ 4094)
    (hdec : decode (s.memory.read s.pc.toNat ++ s.memory.read (s.pc.toNat + 1)) = .error e) :
    step s = .next { s with pc := s.pc + 2 } := by
  simp only [step, clear, fetch_inside hpc, hdec, takeUnknownOpcode, advance_eq]

theorem stepReport_undecodable {s : State} {e : DecodeError} (clear : s.halted = none) (hpc : s.pc.toNat ≤ 4094)
    (hdec : decode (s.memory.read s.pc.toNat ++ s.memory.read (s.pc.toNat + 1)) = .error e) :
    stepReport s = .unknownOpcode (s.memory.read s.pc.toNat ++ s.memory.read (s.pc.toNat + 1)) := by
  simp only [stepReport, clear, fetch_inside hpc, hdec]

theorem reportOf_clear {t : State} (h : t.halted = none) : reportOf (.next t) = .ok := by
  simp only [reportOf, h]

theorem reportOf_latched {t : State} {f : Fault} (h : t.halted = some f) : reportOf (.next t) = .fatal f := by
  simp only [reportOf, h]

/-- Settles O6: the step is the decoded instruction's outcome, and its report reads the latch of that outcome. -/
theorem stepRunsTheDecodedInstruction : Obligations.StepRunsTheDecodedInstruction := by
  intro s i clear hpc hdec
  have report := stepReport_decoded clear hpc hdec
  refine ⟨step_decoded clear hpc hdec, fun t hstep ht => ?_, fun t f hstep ht => ?_⟩
  · rw [report, hstep, reportOf_clear ht]
  · rw [report, hstep, reportOf_latched ht]

/-- Settles O7: neither the step nor its report looks past the failed decode. -/
theorem undecodableWordOnlyAdvancesPc : Obligations.UndecodableWordOnlyAdvancesPc := by
  intro s e clear hpc hdec
  exact ⟨step_undecodable clear hpc hdec, stepReport_undecodable clear hpc hdec⟩

/-! ### What no step touches: timers, keys, and a pending redraw (R128) -/

/-- `t` has the timers and the keys of `s`, and a redraw pending in `s` is pending in `t`. -/
structure KeepsTimersKeysAndRedraw (s t : State) : Prop where
  keypad : t.keypad = s.keypad
  redraw : s.redrawPending = true → t.redrawPending = true
  DT : t.DT = s.DT
  ST : t.ST = s.ST

theorem skipIf_keepsTimersKeysAndRedraw (test : Bool) (s : State) : KeepsTimersKeysAndRedraw s (skipIf test s) := by
  rw [skipIf_eq]
  exact ⟨rfl, id, rfl, rfl⟩

theorem writeFlagged_keepsTimersKeysAndRedraw (x : Reg) (result : Byte) (flag : Bool) (s : State) :
    KeepsTimersKeysAndRedraw s (writeFlagged x result flag s) :=
  ⟨rfl, id, rfl, rfl⟩

theorem setRegs_setI_keepsTimersKeysAndRedraw (bytes : List Byte) (v : Word) (s : State) :
    KeepsTimersKeysAndRedraw s ((setRegs bytes s).setI v) := by
  constructor <;> simp

/-! A data access that faults part-way, and the latch it sets -/

theorem storeHalfDone_keepsTimersKeysAndRedraw (a : Nat) (bytes : List Byte) (s : State) :
    KeepsTimersKeysAndRedraw s (storeHalfDone a bytes s) := by
  constructor <;> simp

theorem loadHalfDone_keepsTimersKeysAndRedraw (a : Nat) (x : Reg) (s : State) :
    KeepsTimersKeysAndRedraw s (loadHalfDone a x s) := by
  constructor <;> simp

theorem KeepsTimersKeysAndRedraw.latch {s t : State} (h : KeepsTimersKeysAndRedraw s t) (f : Fault) :
    KeepsTimersKeysAndRedraw s { t with halted := some f } :=
  ⟨h.keypad, h.redraw, h.DT, h.ST⟩

/-- Every instruction but FX15 and FX18 answers a state that keeps them, whether it completes or latches a fault. -/
theorem exec_keepsTimersKeysAndRedraw (i : Instr) (s : State) (notSetDT : ∀ x, i ≠ .ldDtVx x)
    (notSetST : ∀ x, i ≠ .ldStVx x) : ∃ t, exec i s = .next t ∧ KeepsTimersKeysAndRedraw s t := by
  cases i with
  | ldDtVx x => exact absurd rfl (notSetDT x)
  | ldStVx x => exact absurd rfl (notSetST x)
  | cls => exact ⟨_, rfl, rfl, fun _ => rfl, rfl, rfl⟩
  | jp | jpV0 | ldImm | addImm | ldReg | rnd | ldVxDt | ldI | addIVx | ldF => exact ⟨_, rfl, rfl, id, rfl, rfl⟩
  | seImm | sneImm | seReg | sneReg => exact ⟨_, rfl, skipIf_keepsTimersKeysAndRedraw ..⟩
  | orReg | andReg | xorReg | addReg | subReg | shr | subnReg | shl =>
    exact ⟨_, rfl, writeFlagged_keepsTimersKeysAndRedraw ..⟩
  | ret =>
    obtain ⟨v, rest, -, h⟩ | ⟨-, h⟩ := execRet_cases s <;> exact ⟨_, h, rfl, id, rfl, rfl⟩
  | call nnn =>
    obtain ⟨-, h⟩ | ⟨-, h⟩ := execCall_cases nnn s <;> exact ⟨_, h, rfl, id, rfl, rfl⟩
  | skp x =>
    obtain ⟨k, -, h⟩ | ⟨-, h⟩ := execSkp_cases x s <;> exact ⟨_, h, rfl, id, rfl, rfl⟩
  | sknp x =>
    obtain ⟨k, -, h⟩ | ⟨-, h⟩ := execSknp_cases x s <;> exact ⟨_, h, rfl, id, rfl, rfl⟩
  | ldVxK x =>
    obtain ⟨k, -, -, h⟩ | ⟨-, h⟩ := execLdVxK_cases x s <;> exact ⟨_, h, rfl, id, rfl, rfl⟩
  | drw x y n =>
    obtain ⟨-, d, hit, h⟩ | ⟨-, d, h⟩ := execDrw_cases x y n s
    · exact ⟨_, h, rfl, fun pending => by simp [pending], rfl, rfl⟩
    · exact ⟨_, h, rfl, id, rfl, rfl⟩
  | ldB x =>
    obtain ⟨-, h⟩ | ⟨-, h⟩ := execLdB_cases x s
    · exact ⟨_, h, rfl, id, rfl, rfl⟩
    · exact ⟨_, h, (storeHalfDone_keepsTimersKeysAndRedraw ..).latch _⟩
  | ldMemVx x =>
    obtain ⟨-, h⟩ | ⟨-, h⟩ := execLdMemVx_cases x s
    · exact ⟨_, h, rfl, id, rfl, rfl⟩
    · exact ⟨_, h, (storeHalfDone_keepsTimersKeysAndRedraw ..).latch _⟩
  | ldVxMem x =>
    obtain ⟨-, h⟩ | ⟨-, h⟩ := execLdVxMem_cases x s
    · exact ⟨_, h, setRegs_setI_keepsTimersKeysAndRedraw ..⟩
    · exact ⟨_, h, (loadHalfDone_keepsTimersKeysAndRedraw ..).latch _⟩

/-- Settles O35: a step that executes nothing changes only `pc` or the latch; one that executes FX15 or FX18 sets that
timer to V[X]; every other instruction keeps all four. -/
theorem stepLeavesTimersKeysAndRedraw : Obligations.StepLeavesTimersKeysAndRedraw := by
  intro s t hstep
  obtain ⟨-, ⟨-, rfl⟩ | ⟨-, op, hfetch, ⟨e, -, rfl⟩ | ⟨i, hdec, hexec⟩⟩⟩ := step_cases hstep
  · exact ⟨rfl, id, .inl rfl, .inl rfl⟩
  · exact ⟨rfl, id, .inl rfl, .inl rfl⟩
  by_cases setsDT : ∃ x, i = .ldDtVx x
  · obtain ⟨x, rfl⟩ := setsDT
    obtain rfl := Host.Outcome.next.inj hexec
    exact ⟨rfl, id, .inr ⟨op, x, hfetch, hdec, rfl⟩, .inl rfl⟩
  by_cases setsST : ∃ x, i = .ldStVx x
  · obtain ⟨x, rfl⟩ := setsST
    obtain rfl := Host.Outcome.next.inj hexec
    exact ⟨rfl, id, .inl rfl, .inr ⟨op, x, hfetch, hdec, rfl⟩⟩
  obtain ⟨u, hu, keeps⟩ := exec_keepsTimersKeysAndRedraw i { s with pc := s.pc + 2 }
    (not_exists.mp setsDT) (not_exists.mp setsST)
  obtain rfl := Host.Outcome.next.inj (hu.symm.trans hexec)
  exact ⟨keeps.keypad, keeps.redraw, .inl keeps.DT, .inl keeps.ST⟩

end Sys2Proof.Machine

/-! ## Proofs about control flow (spec/41_control_flow.md) -/

namespace Sys2Proof.Machine

/-- R93: the word of JP NNN is the digit 1 followed by NNN. -/
theorem encode_jp (nnn : Addr12) : encode (.jp nnn) = 0x1#4 ++ nnn := rfl

/-- R141: JP NNN answers, for every NNN and from every state, the state with `pc` written. -/
theorem exec_jp (nnn : Addr12) (s : State) : exec (.jp nnn) s = .next (s.setPc (addrWord nnn)) := rfl

/-- Settles O12: the word is the layout NNN with digit 1, and the execution is one write of `pc`, of NNN zero-extended. -/
theorem jumpSetsPc : Obligations.JumpSetsPc := by
  intro nnn s
  refine ⟨encode_jp nnn, ?_⟩
  calc exec (.jp nnn) s = .next (s.setPc (addrWord nnn)) := exec_jp nnn s
    _ = .next { s with pc := nnn.setWidth 16 } := by rw [addrWord_eq, State.setPc]

end Sys2Proof.Machine

/-! ## Proofs about the register instructions (spec/42_register_alu.md) -/

namespace Sys2Proof.Machine

/-- R93: the word of LD VX, NN is the digit 6, then the nibble of X, then NN. -/
theorem encode_ldImm (x : Reg) (nn : Byte) : encode (.ldImm x nn) = 0x6#4 ++ nibbleOfReg x ++ nn := rfl

/-- R160: LD VX, NN answers, from every state, the state with the one register written. -/
theorem exec_ldImm (x : Reg) (nn : Byte) (s : State) : exec (.ldImm x nn) s = .next (s.setReg x nn) := rfl

/-- Settles O17: the word is the layout XNN with digit 6, and the execution is one register write, so what it sets and
what it leaves (VF too, unless X is F) are the laws of `setReg`. -/
theorem loadImmediateSetsTheRegister : Obligations.LoadImmediateSetsTheRegister := by
  intro x nn s
  refine ⟨encode_ldImm x nn, s.setReg x nn, exec_ldImm x nn s, ?written, ?others, ?frame⟩
  case written => exact s.reg_setReg_self x nn
  case others => exact fun r hr => s.reg_setReg_other nn hr
  case frame => exact s.setReg_frame x nn

end Sys2Proof.Machine

/-! ## Proofs about the entropy source (spec/43_random.md) -/

namespace Sys2Proof.Machine

/-- R191: the product is exact and reduced once; the 16 bits of the seed lose nothing of a value already reduced mod
65536. -/
theorem nextSeed_toNat (seed : Word) : (nextSeed seed).toNat = (75 * seed.toNat + 74) % 65536 :=
  calc (nextSeed seed).toNat
    _ = (75 * seed.toNat + 74) % 65536 % 2 ^ 16 := BitVec.toNat_ofNat _ _
    _ = (75 * seed.toNat + 74) % 65536 := Nat.mod_mod _ _

/-- R191: the value returned is the new seed. -/
@[simp] theorem nextRandom_fst (s : State) : (nextRandom s).1 = nextSeed s.seed := rfl

/-- R191: the seed becomes the new one, and no other field changes. -/
@[simp] theorem nextRandom_snd (s : State) : (nextRandom s).2 = { s with seed := nextSeed s.seed } := rfl

/-- Settles O24: the value returned is the recurrence's at the old seed, and the state afterwards differs in the seed
alone, which is that value. -/
theorem nextRandomAdvancesAndReturnsTheSeed : Obligations.NextRandomAdvancesAndReturnsTheSeed := by
  intro s
  constructor
  case left => rw [nextRandom_fst, nextSeed_toNat]
  case right => rw [nextRandom_snd, nextRandom_fst]

end Sys2Proof.Machine

/-! ## Proofs about the index register (spec/47_memory_index.md) -/

namespace Sys2Proof.Machine

/-- R93: the word of LD F, VX is the digit F, then the nibble of X, then 29. -/
theorem encode_ldF (x : Reg) : encode (.ldF x) = 0xF#4 ++ nibbleOfReg x ++ 0x29#8 := rfl

/-- R242: LD F, VX answers, from every state, the state with the glyph address of V[X] written to `I`. -/
theorem exec_ldF (x : Reg) (s : State) : exec (.ldF x) s = .next (s.setI (glyphAddr (s.reg x))) := rfl

/-- R242: with the font at address 0 the address is the product alone; it is at most 75, so 16 bits hold it. -/
theorem toNat_glyphAddr (v : Byte) : (glyphAddr v).toNat = v.toNat % 16 * 5 := by
  have fits : v.toNat % 16 * 5 < 2 ^ 16 := by omega
  rw [glyphAddr_eq, Nat.zero_add, BitVec.toNat_ofNat, Nat.mod_eq_of_lt fits]

/-- A write of `I` changes no other field: with the old `I` put back, the state is the old one. -/
theorem State.setI_frame (s : State) (v : Word) : { s.setI v with I := s.I } = s := rfl

/-- Settles O37: the word is the layout XNN with digit F and low byte 29, and the execution is one write of `I`, of the
glyph address, so no memory is read and no flag written. -/
theorem glyphAddressFromTheLowNibble : Obligations.GlyphAddressFromTheLowNibble := by
  intro x s
  refine ⟨encode_ldF x, s.setI (glyphAddr (s.reg x)), exec_ldF x s, ?index, ?frame⟩
  case index => rw [State.setI_I, toNat_glyphAddr]
  case frame => exact s.setI_frame _

end Sys2Proof.Machine

/-! ## Proofs about encoding and decoding (spec/30_encoding.md) -/

namespace Sys2Proof

/-! ### A word from its first digit and its fields -/

theorem encodeNNN_of_digit {op : Word} {d1 : Nat} (h1 : (nibble1 op).toNat = d1) :
    encodeNNN (BitVec.ofNat 4 d1) (fieldNNN op) = op := by
  rw [← h1, BitVec.ofNat_toNat, BitVec.setWidth_eq, encodeNNN_fields]

theorem encodeXNN_of_digit {op : Word} {d1 : Nat} (h1 : (nibble1 op).toNat = d1) :
    encodeXNN (BitVec.ofNat 4 d1) (fieldX op) (fieldNN op) = op := by
  rw [← h1, BitVec.ofNat_toNat, BitVec.setWidth_eq, encodeXNN_fields]

theorem encodeXYN_of_digits {op : Word} {d1 d4 : Nat} (h1 : (nibble1 op).toNat = d1) (h4 : (nibble4 op).toNat = d4) :
    encodeXYN (BitVec.ofNat 4 d1) (fieldX op) (fieldY op) (BitVec.ofNat 4 d4) = op := by
  rw [← h1, ← h4, BitVec.ofNat_toNat, BitVec.ofNat_toNat, BitVec.setWidth_eq, BitVec.setWidth_eq, encodeXYN_fields]

/-! ### Encode, then decode -/

/-- The first digit leads the decoder to the arm that reads the operand fields back. -/
theorem decode_encode (i : Instr) : decode (encode i) = .ok i := by
  cases i with
  | cls | ret => decide
  | jp | call | ldI | jpV0 | seImm | sneImm | ldImm | addImm | rnd | skp | sknp | seReg | sneReg | drw =>
    simp [encode, decode]
  | ldReg | orReg | andReg | xorReg | addReg | subReg | shr | subnReg | shl => simp [encode, decode, decodeAlu]
  | ldVxDt | ldVxK | ldDtVx | ldStVx | addIVx | ldF | ldB | ldMemVx | ldVxMem => simp [encode, decode, decodeFX]

/-- The encoding of every instruction lies in its row, and that row stands in the table. -/
theorem encodesInRow (i : Instr) : Laws.EncodesInRow.Statement i := by
  cases i with
  | cls => exact Laws.EncodesInRow.cls
  | ret => exact Laws.EncodesInRow.ret
  | jp nnn => exact Laws.EncodesInRow.jp nnn
  | call nnn => exact Laws.EncodesInRow.call nnn
  | seImm x nn => exact Laws.EncodesInRow.seImm x nn
  | sneImm x nn => exact Laws.EncodesInRow.sneImm x nn
  | seReg x y => exact Laws.EncodesInRow.seReg x y
  | ldImm x nn => exact Laws.EncodesInRow.ldImm x nn
  | addImm x nn => exact Laws.EncodesInRow.addImm x nn
  | ldReg x y => exact Laws.EncodesInRow.ldReg x y
  | orReg x y => exact Laws.EncodesInRow.orReg x y
  | andReg x y => exact Laws.EncodesInRow.andReg x y
  | xorReg x y => exact Laws.EncodesInRow.xorReg x y
  | addReg x y => exact Laws.EncodesInRow.addReg x y
  | subReg x y => exact Laws.EncodesInRow.subReg x y
  | shr x y => exact Laws.EncodesInRow.shr x y
  | subnReg x y => exact Laws.EncodesInRow.subnReg x y
  | shl x y => exact Laws.EncodesInRow.shl x y
  | sneReg x y => exact Laws.EncodesInRow.sneReg x y
  | ldI nnn => exact Laws.EncodesInRow.ldI nnn
  | jpV0 nnn => exact Laws.EncodesInRow.jpV0 nnn
  | rnd x nn => exact Laws.EncodesInRow.rnd x nn
  | drw x y n => exact Laws.EncodesInRow.drw x y n
  | skp x => exact Laws.EncodesInRow.skp x
  | sknp x => exact Laws.EncodesInRow.sknp x
  | ldVxDt x => exact Laws.EncodesInRow.ldVxDt x
  | ldVxK x => exact Laws.EncodesInRow.ldVxK x
  | ldDtVx x => exact Laws.EncodesInRow.ldDtVx x
  | ldStVx x => exact Laws.EncodesInRow.ldStVx x
  | addIVx x => exact Laws.EncodesInRow.addIVx x
  | ldF x => exact Laws.EncodesInRow.ldF x
  | ldB x => exact Laws.EncodesInRow.ldB x
  | ldMemVx x => exact Laws.EncodesInRow.ldMemVx x
  | ldVxMem x => exact Laws.EncodesInRow.ldVxMem x

/-- R105: there is no instruction outside the table. -/
theorem instr_wellFormed (i : Instr) : i.wellFormed = true :=
  List.contains_iff_mem.mpr (encodesInRow i).1

/-- Settles O1: case by case the decoder reads the operands back from the word, and from the word's bytes in front of
others the word. -/
theorem decodeOfEncodeIsTheInstruction : Obligations.DecodeOfEncodeIsTheInstruction := by
  intro i rest
  refine ⟨instr_wellFormed i, decode_encode i, ?_⟩
  rw [encodeBytes, decodeBytes_bytesOfWord, decode_encode]

/-! ### Decode, then encode -/

theorem encode_of_decodeAlu {op : Word} {i : Instr} (h1 : (nibble1 op).toNat = 8) (h : decodeAlu op = .ok i) :
    encode i = op := by
  unfold decodeAlu at h
  split at h <;> cases h
  all_goals
    rename_i h4
    exact encodeXYN_of_digits h1 h4

theorem encode_of_decodeFX {op : Word} {i : Instr} (h1 : (nibble1 op).toNat = 15) (h : decodeFX op = .ok i) :
    encode i = op := by
  have word := encodeXNN_of_digit h1
  unfold decodeFX at h
  repeat' split at h
  all_goals cases h
  all_goals
    rename_i hNN
    rw [hNN] at word
    exact word

/-- The arms of the decoder by their layouts: each gives an instruction whose word has the digits and fields read. -/
theorem encode_of_decode {op : Word} {i : Instr} (h : decode op = .ok i) : encode i = op := by
  unfold decode at h
  split at h <;> rename_i h1
  case h_1 => -- 00E0 and 00EE
    repeat' split at h
    all_goals cases h
    all_goals
      rename_i hop
      exact hop.symm
  case h_2 | h_3 | h_11 | h_12 => -- 1NNN, 2NNN, ANNN, BNNN
    cases h
    exact encodeNNN_of_digit h1
  case h_4 | h_5 | h_7 | h_8 | h_13 => -- 3XNN, 4XNN, 6XNN, 7XNN, CXNN
    cases h
    exact encodeXNN_of_digit h1
  case h_6 | h_10 => -- 5XY0, 9XY0
    split at h
    · rename_i h4
      cases h
      exact encodeXYN_of_digits h1 (congrArg BitVec.toNat h4)
    · cases h
  case h_9 => exact encode_of_decodeAlu h1 h
  case h_14 => -- DXYN
    cases h
    exact (congrArg _ (BitVec.ofNat_toNat ..)).symm.trans (encodeXYN_of_digits h1 rfl)
  case h_15 => -- EX9E, EXA1
    have word := encodeXNN_of_digit h1
    repeat' split at h
    all_goals cases h
    all_goals
      rename_i hNN
      rw [hNN] at word
      exact word
  case h_16 => -- no other digit than F is left
    have digit_lt := (nibble1 op).isLt
    refine encode_of_decodeFX ?_ h
    simp only [imp_false] at *
    omega

/-- Settles O2, by the arm of the decoder that the word took. -/
theorem encodeOfDecodedWordIsTheWord : Obligations.EncodeOfDecodedWordIsTheWord := fun _ _ => encode_of_decode

/-! ### The decoder and the table of R96 -/

theorem nibble1_and (a b : Word) : nibble1 (a &&& b) = nibble1 a &&& nibble1 b := BitVec.extractLsb'_and

theorem nibble4_and (a b : Word) : nibble4 (a &&& b) = nibble4 a &&& nibble4 b := BitVec.extractLsb'_and

theorem fieldNN_and (a b : Word) : fieldNN (a &&& b) = fieldNN a &&& fieldNN b := BitVec.extractLsb'_and

/-- Two rows that select one word are one row (R95). -/
theorem row_unique {r q : OpcodeRow} {op : Word} (hr : r ∈ opcodeRows) (hq : q ∈ opcodeRows)
    (selR : r.selects op = true) (selQ : q.selects op = true) : r = q := by
  have patR : op &&& r.mask = r.pattern := eq_of_beq selR
  have patQ : op &&& q.mask = q.pattern := eq_of_beq selQ
  refine opcodeRows_disjoint r hr q hq ?_
  rw [← patR, ← patQ]
  ext k hk
  simp only [BitVec.getElem_and]
  cases op[k] <;> cases r.mask[k] <;> cases q.mask[k] <;> rfl

/-- What a row that selects a word says of the digits of the word. -/
theorem digits_of_selects {r : OpcodeRow} {op : Word} (h : r.selects op = true) :
    nibble1 op &&& nibble1 r.mask = nibble1 r.pattern ∧ nibble4 op &&& nibble4 r.mask = nibble4 r.pattern ∧
      fieldNN op &&& fieldNN r.mask = fieldNN r.pattern := by
  have masked : op &&& r.mask = r.pattern := eq_of_beq h
  rw [← nibble1_and, ← nibble4_and, ← fieldNN_and, masked]
  exact ⟨rfl, rfl, rfl⟩

theorem nibble_and_ones (d : Nibble) : d &&& 15#4 = d := BitVec.and_allOnes

theorem byte_and_ones (b : Byte) : b &&& 255#8 = b := BitVec.and_allOnes

/-- A row that fixes every bit selects its pattern alone. -/
theorem eq_pattern_of_selects {op pattern : Word} {name : String}
    (h : (OpcodeRow.mk name 0xFFFF#16 pattern).selects op = true) : op = pattern := by
  have whole : op &&& BitVec.allOnes 16 = pattern := eq_of_beq h
  rwa [BitVec.and_allOnes] at whole

theorem decodes_of_selects_control {r : OpcodeRow} {op : Word} (hr : r ∈ opcodeRowsControl)
    (h : r.selects op = true) : ∃ i, decode op = .ok i := by
  simp only [opcodeRowsControl, List.mem_cons, List.not_mem_nil, or_false] at hr
  obtain rfl | rfl | hr := hr
  · exact ⟨.cls, eq_pattern_of_selects h ▸ rfl⟩
  · exact ⟨.ret, eq_pattern_of_selects h ▸ rfl⟩
  · obtain ⟨h1, h4, -⟩ := digits_of_selects h
    obtain rfl | rfl | rfl | rfl | rfl | rfl | rfl | rfl := hr <;>
      simp [nibble1, nibble4, nibble_and_ones] at h1 h4 <;>
      simp [decode, decodeAlu, nibble1, nibble4, h1, h4]

theorem decodes_of_selects_alu {r : OpcodeRow} {op : Word} (hr : r ∈ opcodeRowsAlu) (h : r.selects op = true) :
    ∃ i, decode op = .ok i := by
  obtain ⟨h1, h4, -⟩ := digits_of_selects h
  fin_cases hr <;> simp [nibble1, nibble4, nibble_and_ones] at h1 h4 <;>
    simp [decode, decodeAlu, nibble1, nibble4, h1, h4]

theorem decodes_of_selects_index {r : OpcodeRow} {op : Word} (hr : r ∈ opcodeRowsIndex) (h : r.selects op = true) :
    ∃ i, decode op = .ok i := by
  obtain ⟨h1, -, hNN⟩ := digits_of_selects h
  fin_cases hr <;> simp [nibble1, fieldNN, nibble_and_ones, byte_and_ones] at h1 hNN <;>
    simp [decode, nibble1, fieldNN, h1, hNN]

theorem decodes_of_selects_FX {r : OpcodeRow} {op : Word} (hr : r ∈ opcodeRowsFX) (h : r.selects op = true) :
    ∃ i, decode op = .ok i := by
  obtain ⟨h1, -, hNN⟩ := digits_of_selects h
  fin_cases hr <;> simp [nibble1, fieldNN, nibble_and_ones, byte_and_ones] at h1 hNN <;>
    simp [decode, decodeFX, nibble1, fieldNN, h1, hNN]

theorem decodes_of_wordWellFormed {op : Word} (h : wordWellFormed op = true) : ∃ i, decode op = .ok i := by
  obtain ⟨r, hr, sel⟩ := List.any_eq_true.mp h
  simp only [opcodeRows, List.mem_append] at hr
  obtain ((hr | hr) | hr) | hr := hr
  · exact decodes_of_selects_control hr sel
  · exact decodes_of_selects_alu hr sel
  · exact decodes_of_selects_index hr sel
  · exact decodes_of_selects_FX hr sel

/-- A word that decodes is selected by the row of its instruction, since it is the encoding of that instruction. -/
theorem row_of_decode {op : Word} {i : Instr} (h : decode op = .ok i) :
    i.row ∈ opcodeRows ∧ i.row.selects op = true := by
  rw [← encode_of_decode h]
  exact encodesInRow i

/-- Settles O3: a decoded word lies in its instruction's row, rows are disjoint, and the digits a row fixes lead the
decoder to an instruction. -/
theorem wordDecodesExactlyWhenOneRowSelectsIt : Obligations.WordDecodesExactlyWhenOneRowSelectsIt := by
  refine ⟨fun op i h => ?decoded, fun op => decodes_of_wordWellFormed, fun op illFormed => ?refused⟩
  case decoded =>
    obtain ⟨mem, sel⟩ := row_of_decode h
    exact ⟨mem, sel, fun r hr selR => row_unique hr mem selR sel⟩
  case refused =>
    cases h : decode op with
    | error e => rw [decode_error h]
    | ok i =>
      obtain ⟨mem, sel⟩ := row_of_decode h
      have wellFormed : wordWellFormed op = true := List.any_eq_true.mpr ⟨_, mem, sel⟩
      exact absurd wellFormed (by simp [illFormed])

/-! ### The words that do not decode -/

/-- A refusal that stands behind a test is reached exactly when the test fails. -/
theorem ite_ok_eq_error_iff {p : Prop} [Decidable p] {i : Instr} {d : Except DecodeError Instr} {e : DecodeError} :
    (if p then .ok i else d) = .error e ↔ ¬ p ∧ d = .error e := by
  by_cases h : p <;> simp [h]

theorem decodeAlu_fails_iff (op : Word) :
    decodeAlu op = .error (.unknownOpcode op) ↔ op.toNat % 16 ∈ [0x8, 0x9, 0xA, 0xB, 0xC, 0xD, 0xF] := by
  rw [← toNat_nibble4]
  rcases nibble_cases (nibble4 op) with h | h | h | h | h | h | h | h | h | h | h | h | h | h | h | h <;>
    simp [decodeAlu, h]

theorem decodeFX_fails_iff (op : Word) :
    decodeFX op = .error (.unknownOpcode op) ↔
      op.toNat % 256 ∉ [0x07, 0x0A, 0x15, 0x18, 0x1E, 0x29, 0x33, 0x55, 0x65] := by
  simp [decodeFX, ite_ok_eq_error_iff, BitVec.toNat_eq, toNat_fieldNN]

/-- Settles O4, by the sixteen values of the first digit: ten of them decode whatever follows, and the other six by the
digits R99 names. -/
theorem undecodableWordsAreTheListedOnes : Obligations.UndecodableWordsAreTheListedOnes := by
  intro op
  have digit : op.toNat / 0x1000 = (nibble1 op).toNat := (toNat_nibble1 op).symm
  have digit_zero : op.toNat < 0x1000 ↔ (nibble1 op).toNat = 0 := by omega
  rw [digit_zero, digit, ← decodeAlu_fails_iff, ← decodeFX_fails_iff]
  rcases nibble_cases (nibble1 op) with h | h | h | h | h | h | h | h | h | h | h | h | h | h | h | h <;>
    simp [decode, h, ite_ok_eq_error_iff, BitVec.toNat_eq, toNat_nibble4, toNat_fieldNN]

/-- Settles O5: the decoder run on the fifteen words. -/
theorem writtenOutWordsDecode : Obligations.WrittenOutWordsDecode := by
  unfold Obligations.WrittenOutWordsDecode
  decide

end Sys2Proof

/-! ## Proofs about the execute phase as a whole (spec/40_step_cycle.md, spec/60_exceptions.md) -/

namespace Sys2Proof.Machine

/-! ### Everything an instruction can do: complete, or raise a fault -/

/-- Where an instruction that completes leaves `pc` and the stack (R140 to R149, R223). -/
inductive Transfers (s t : State) : Prop where
  /-- on to the next instruction, or over it -/
  | forward (stack : t.stack = s.stack) (pc : t.pc = s.pc ∨ t.pc = s.pc + 2)
  /-- back to the instruction itself: the key wait -/
  | wait (stack : t.stack = s.stack) (pc : t.pc = s.pc - 2)
  /-- to a target no higher than that of BNNN -/
  | jump (stack : t.stack = s.stack) (pc : t.pc.toNat ≤ 0x10FE)
  | call (room : s.sp < 16) (stack : t.stack = s.pc :: s.stack) (pc : t.pc.toNat ≤ 0xFFF)
  | ret (stack : s.stack = t.pc :: t.stack)

/-- What holds of every instruction that completes: the latch is as before, memory changes by LD B and LD [I] alone and
inside its bounds (R67), the seed by RND alone (R192). -/
structure Completes (i : Instr) (s t : State) : Prop where
  halted : t.halted = s.halted
  memory : t.memory = s.memory ∨
    (∃ x, i = .ldB x ∨ i = .ldMemVx x) ∧
      ∃ bytes, s.I.toNat + bytes.length ≤ 4096 ∧ t.memory = s.memory.writeBytes s.I.toNat bytes
  seed : t.seed = s.seed ∨ ∃ x nn, i = .rnd x nn
  transfers : Transfers s t

/-- Which instruction raises which fault from which state, and the state it leaves (R281, R286, R290). -/
inductive Raises (s : State) : Instr → Fault → State → Prop where
  | overflow (nnn : Addr12) (full : 16 ≤ s.sp) :
      Raises s (.call nnn) .stackOverflow { s with halted := some .stackOverflow }
  | underflow (empty : s.stack = []) : Raises s .ret .stackUnderflow { s with halted := some .stackUnderflow }
  | skp (x : Reg) (noKey : 15 < (s.reg x).toNat) :
      Raises s (.skp x) (.keyIndexOutOfRange (s.reg x)) { s with halted := some (.keyIndexOutOfRange (s.reg x)) }
  | sknp (x : Reg) (noKey : 15 < (s.reg x).toNat) :
      Raises s (.sknp x) (.keyIndexOutOfRange (s.reg x)) { s with halted := some (.keyIndexOutOfRange (s.reg x)) }
  | drw (x y : Reg) (n : Nibble) (d : Display) (rows : n ≠ 0) (beyond : 4096 < s.I.toNat + s.rowsOnScreen y n) :
      Raises s (.drw x y n) (.dataAddressOutOfRange (max s.I.toNat 4096))
        { ({ s with display := d }.setReg VF (flagHalfDone s)).tickFree with
          halted := some (.dataAddressOutOfRange (max s.I.toNat 4096)) }
  | ldB (x : Reg) (beyond : 4095 < s.I.toNat + 2) :
      Raises s (.ldB x) (.dataAddressOutOfRange (max s.I.toNat 4096))
        { storeHalfDone s.I.toNat (decimalDigits (s.reg x)) s with
          halted := some (.dataAddressOutOfRange (max s.I.toNat 4096)) }
  | ldMemVx (x : Reg) (beyond : 4095 < s.I.toNat + x.val) :
      Raises s (.ldMemVx x) (.dataAddressOutOfRange (max s.I.toNat 4096))
        { storeHalfDone s.I.toNat (regsThrough x s) s with
          halted := some (.dataAddressOutOfRange (max s.I.toNat 4096)) }
  | ldVxMem (x : Reg) (beyond : 4095 < s.I.toNat + x.val) :
      Raises s (.ldVxMem x) (.dataAddressOutOfRange (max s.I.toNat 4096))
        { loadHalfDone s.I.toNat x s with halted := some (.dataAddressOutOfRange (max s.I.toNat 4096)) }

theorem Raises.latches {s t : State} {i : Instr} {f : Fault} (h : Raises s i f t) : t.halted = some f := by
  cases h <;> rfl

/-- An instruction that touches neither the latch, memory nor the seed, and goes on to the next. -/
theorem Completes.next {i : Instr} {s t : State} (halted : t.halted = s.halted) (memory : t.memory = s.memory)
    (seed : t.seed = s.seed) (stack : t.stack = s.stack) (pc : t.pc = s.pc) : Completes i s t :=
  ⟨halted, .inl memory, .inl seed, .forward stack (.inl pc)⟩

theorem skipIf_completes (i : Instr) (test : Bool) (s : State) : Completes i s (skipIf test s) := by
  rw [skipIf_eq]
  exact ⟨rfl, .inl rfl, .inl rfl, .forward rfl (by cases test <;> simp)⟩

theorem toNat_addrWord_le (nnn : Addr12) : (addrWord nnn).toNat ≤ 0xFFF := by
  have := nnn.isLt
  simp; omega

theorem toNat_jumpOffsetTarget (nnn : Addr12) (s : State) :
    (jumpOffsetTarget nnn s).toNat = nnn.toNat + (s.reg 0).toNat := by
  have := nnn.isLt
  have := (s.reg 0).isLt
  rw [jumpOffsetTarget_eq, BitVec.toNat_add, BitVec.toNat_setWidth, BitVec.toNat_setWidth]
  omega

theorem toNat_jumpOffsetTarget_le (nnn : Addr12) (s : State) : (jumpOffsetTarget nnn s).toNat ≤ 0x10FE := by
  have := nnn.isLt
  have := (s.reg 0).isLt
  rw [toNat_jumpOffsetTarget]
  omega

/-- Every instruction from every state answers a next state, and either completes or raises one of its faults. -/
theorem exec_cases (i : Instr) (s : State) :
    ∃ t, exec i s = .next t ∧ (Completes i s t ∨ ∃ f, Raises s i f t) := by
  cases i with
  | cls | ldImm | addImm | ldReg | ldVxDt | ldDtVx | ldStVx | ldI | addIVx | ldF
  | orReg | andReg | xorReg | addReg | subReg | shr | subnReg | shl =>
    exact ⟨_, rfl, .inl (.next rfl rfl rfl rfl rfl)⟩
  | seImm | sneImm | seReg | sneReg => exact ⟨_, rfl, .inl (skipIf_completes ..)⟩
  | jp nnn =>
    exact ⟨_, rfl, .inl ⟨rfl, .inl rfl, .inl rfl, .jump rfl ((toNat_addrWord_le nnn).trans (by decide))⟩⟩
  | jpV0 nnn => exact ⟨_, rfl, .inl ⟨rfl, .inl rfl, .inl rfl, .jump rfl (toNat_jumpOffsetTarget_le nnn s)⟩⟩
  | rnd x nn => exact ⟨_, rfl, .inl ⟨rfl, .inl rfl, .inr ⟨x, nn, rfl⟩, .forward rfl (.inl rfl)⟩⟩
  | ret =>
    obtain ⟨v, rest, hs, h⟩ | ⟨empty, h⟩ := execRet_cases s
    · exact ⟨_, h, .inl ⟨rfl, .inl rfl, .inl rfl, .ret hs⟩⟩
    · exact ⟨_, h, .inr ⟨_, .underflow empty⟩⟩
  | call nnn =>
    obtain ⟨room, h⟩ | ⟨full, h⟩ := execCall_cases nnn s
    · exact ⟨_, h, .inl ⟨rfl, .inl rfl, .inl rfl, .call room rfl (toNat_addrWord_le nnn)⟩⟩
    · exact ⟨_, h, .inr ⟨_, .overflow nnn full⟩⟩
  | skp x =>
    obtain ⟨k, -, h⟩ | ⟨noKey, h⟩ := execSkp_cases x s
    · exact ⟨_, h, .inl (skipIf_eq s _ ▸ skipIf_completes _ (s.key k) s)⟩
    · exact ⟨_, h, .inr ⟨_, .skp x noKey⟩⟩
  | sknp x =>
    obtain ⟨k, -, h⟩ | ⟨noKey, h⟩ := execSknp_cases x s
    · exact ⟨_, h, .inl (skipIf_eq s _ ▸ skipIf_completes _ (!s.key k) s)⟩
    · exact ⟨_, h, .inr ⟨_, .sknp x noKey⟩⟩
  | ldVxK x =>
    obtain ⟨k, -, -, h⟩ | ⟨-, h⟩ := execLdVxK_cases x s
    · exact ⟨_, h, .inl (.next rfl rfl rfl rfl rfl)⟩
    · exact ⟨_, h, .inl ⟨rfl, .inl rfl, .inl rfl, .wait rfl rfl⟩⟩
  | drw x y n =>
    obtain ⟨-, d, hit, h⟩ | ⟨⟨rows, beyond⟩, d, h⟩ := execDrw_cases x y n s
    · exact ⟨_, h, .inl (.next rfl rfl rfl rfl rfl)⟩
    · exact ⟨_, h, .inr ⟨_, .drw x y n d rows beyond⟩⟩
  | ldB x =>
    obtain ⟨fits, h⟩ | ⟨beyond, h⟩ := execLdB_cases x s
    · exact ⟨_, h, .inl ⟨rfl, .inr ⟨⟨x, .inl rfl⟩, decimalDigits (s.reg x), fits, rfl⟩, .inl rfl,
        .forward rfl (.inl rfl)⟩⟩
    · exact ⟨_, h, .inr ⟨_, .ldB x (by omega)⟩⟩
  | ldMemVx x =>
    obtain ⟨fits, h⟩ | ⟨beyond, h⟩ := execLdMemVx_cases x s
    · exact ⟨_, h, .inl ⟨rfl, .inr ⟨⟨x, .inr rfl⟩, _, by rw [length_regsThrough]; omega, rfl⟩, .inl rfl,
        .forward rfl (.inl rfl)⟩⟩
    · exact ⟨_, h, .inr ⟨_, .ldMemVx x (by omega)⟩⟩
  | ldVxMem x =>
    obtain ⟨-, h⟩ | ⟨beyond, h⟩ := execLdVxMem_cases x s
    · exact ⟨_, h, .inl (.next (by simp) (by simp) (by simp) (by simp) (by simp))⟩
    · exact ⟨_, h, .inr ⟨_, .ldVxMem x (by omega)⟩⟩

theorem exec_next_cases {i : Instr} {s t : State} (h : exec i s = .next t) :
    Completes i s t ∨ ∃ f, Raises s i f t := by
  obtain ⟨u, hu, cases⟩ := exec_cases i s
  obtain rfl := Host.Outcome.next.inj (hu.symm.trans h)
  exact cases

/-- A fault latched by an instruction that began with a clear latch is one it raised. -/
theorem raises_of_latched {i : Instr} {s t : State} {f : Fault} (clear : s.halted = none) (h : exec i s = .next t)
    (latched : t.halted = some f) : Raises s i f t := by
  obtain completes | ⟨g, raises⟩ := exec_next_cases h
  · simp [completes.halted, clear] at latched
  · obtain rfl : g = f := Option.some.inj (raises.latches.symm.trans latched)
    exact raises

/-- A raised fault touches memory by LD B and LD [I] alone. -/
theorem Raises.memory {s t : State} {i : Instr} {f : Fault} (h : Raises s i f t) :
    t.memory = s.memory ∨ (∃ x, i = .ldB x ∨ i = .ldMemVx x) ∧
      ∃ bytes, t.memory = (storeHalfDone s.I.toNat bytes s).memory := by
  cases h with
  | overflow | underflow | skp | sknp | drw => exact .inl rfl
  | ldB x => exact .inr ⟨⟨x, .inl rfl⟩, _, rfl⟩
  | ldMemVx x => exact .inr ⟨⟨x, .inr rfl⟩, _, rfl⟩
  | ldVxMem x => exact .inl (by simp only [loadHalfDone_memory])

/-- A raised fault changes at most memory, V, the display, the latch and the model's own counter. -/
theorem Raises.frame {s t : State} {i : Instr} {f : Fault} (h : Raises s i f t) :
    { t with
      memory := s.memory, V := s.V, display := s.display, halted := s.halted, freeCount := s.freeCount } = s := by
  cases h with
  | overflow | underflow | skp | sknp | drw => rfl
  | ldB | ldMemVx =>
    exact congrArg (fun u : State => { u with V := s.V, display := s.display, halted := s.halted })
      (storeHalfDone_frame _ _ s)
  | ldVxMem x =>
    exact congrArg (fun u : State => { u with memory := s.memory, display := s.display, halted := s.halted })
      (loadHalfDone_frame _ x s)

theorem Raises.pc {s t : State} {i : Instr} {f : Fault} (h : Raises s i f t) : t.pc = s.pc :=
  (congrArg State.pc h.frame :)

theorem Raises.stack {s t : State} {i : Instr} {f : Fault} (h : Raises s i f t) : t.stack = s.stack :=
  (congrArg State.stack h.frame :)

theorem Raises.seed {s t : State} {i : Instr} {f : Fault} (h : Raises s i f t) : t.seed = s.seed :=
  (congrArg State.seed h.frame :)

/-! ### What only some instructions change -/

theorem exec_keeps_memory {i : Instr} {s t : State} (notLdB : ∀ x, i ≠ .ldB x) (notLdMem : ∀ x, i ≠ .ldMemVx x)
    (h : exec i s = .next t) : t.memory = s.memory := by
  have notStore : ¬ ∃ x, i = .ldB x ∨ i = .ldMemVx x := fun ⟨x, hx⟩ => hx.elim (notLdB x) (notLdMem x)
  obtain completes | ⟨f, raises⟩ := exec_next_cases h
  · exact completes.memory.resolve_right fun h => notStore h.1
  · exact raises.memory.resolve_right fun h => notStore h.1

theorem exec_keeps_seed {i : Instr} {s t : State} (notRnd : ∀ x nn, i ≠ .rnd x nn) (h : exec i s = .next t) :
    t.seed = s.seed := by
  obtain completes | ⟨f, raises⟩ := exec_next_cases h
  · exact completes.seed.resolve_right fun ⟨x, nn, hi⟩ => notRnd x nn hi
  · exact raises.seed

/-- Settles O45: an instruction that completes changes memory only by a store, and so does one that faults. -/
theorem onlyTheStoresChangeMemory : Obligations.OnlyTheStoresChangeMemory := fun _ _ _ => exec_keeps_memory

/-- Settles O26: among the instructions RND alone draws, and of the host's operations `step` and `reset` alone write the
seed. -/
theorem onlyRandomChangesTheSeed : Obligations.OnlyRandomChangesTheSeed := by
  refine ⟨fun i s t => exec_keeps_seed, fun seedInit op s notStep notReset => ?_⟩
  cases op with
  | step => exact absurd rfl notStep
  | reset => exact absurd rfl notReset
  | loadFont => exact loadFont_seed s
  | tickTimer | acknowledgeRedraw => rfl
  | loadProgram image =>
    obtain ⟨-, h⟩ | ⟨-, h⟩ := loadProgram_cases image s <;> rw [perform, h] <;> rfl
  | setKey index pressed =>
    obtain ⟨k, -, h⟩ | ⟨-, h⟩ := setKey_cases index pressed s <;> rw [perform, h] <;> rfl

/-! ### Stops -/

/-- Settles O48: every instruction answers a next state, so a step stops only at the halt check. -/
theorem nothingStopsButALatchedFault : Obligations.NothingStopsButALatchedFault := by
  have total (i : Instr) (s : State) : ∃ t, exec i s = .next t := (exec_cases i s).imp fun _ h => h.1
  refine ⟨total, fun s => ?_⟩
  cases hh : s.halted with
  | some f => exact .inr ⟨f, rfl, by simp only [step, hh, refuseHalted]⟩
  | none =>
    left
    obtain beyond | inside := Nat.lt_or_ge 4094 s.pc.toNat
    · exact ⟨_, by simp only [step, hh, fetch_outside beyond, raise]; rfl⟩
    cases hd : decode (s.memory.read s.pc.toNat ++ s.memory.read (s.pc.toNat + 1)) with
    | error e => exact ⟨_, step_undecodable hh inside hd⟩
    | ok i => exact step_decoded hh inside hd ▸ total i _

/-! ### Faults -/

/-- Settles O49: the list of the faults with their conditions is that of `Raises`. -/
theorem onlyTheNamedInstructionsRaise : Obligations.OnlyTheNamedInstructionsRaise := by
  intro i s t f clear h latched
  cases raises_of_latched clear h latched with
  | overflow nnn full => exact ⟨full, nnn, rfl⟩
  | underflow empty => exact ⟨List.length_eq_zero_iff.mpr empty, rfl⟩
  | skp x noKey => exact ⟨noKey, x, rfl, .inl rfl⟩
  | sknp x noKey => exact ⟨noKey, x, rfl, .inr rfl⟩
  | drw x y n d rows beyond => exact ⟨rfl, .inl ⟨x, y, n, rfl, rows, beyond⟩⟩
  | ldB x beyond => exact ⟨rfl, .inr (.inl ⟨x, rfl, beyond⟩)⟩
  | ldMemVx x beyond => exact ⟨rfl, .inr (.inr (.inl ⟨x, rfl, beyond⟩))⟩
  | ldVxMem x beyond => exact ⟨rfl, .inr (.inr (.inr ⟨x, rfl, beyond⟩))⟩

theorem Raises.only_latches {s t : State} {i : Instr} {f : Fault} (h : Raises s i f t)
    (notData : ∀ a, f ≠ .dataAddressOutOfRange a) : t = { s with halted := some f } := by
  cases h with
  | overflow | underflow | skp | sknp => rfl
  | drw | ldB | ldMemVx | ldVxMem => exact absurd rfl (notData _)

theorem read_storeHalfDone_outside (a : Nat) (bytes : List Byte) (s : State) {b : Nat} (h : b < a ∨ 4095 < b) :
    (storeHalfDone a bytes s).memory.read b = s.memory.read b :=
  (read_storeHalfDone a bytes s b).resolve_right fun ⟨h1, _, h3, _⟩ => by omega

/-- A store that faults has written nothing outside `I`..4095. -/
theorem Raises.store_precise {s t : State} {i : Instr} {f : Fault} {x : Reg} (h : Raises s i f t)
    (store : i = .ldB x ∨ i = .ldMemVx x) :
    (∀ a, a < s.I.toNat ∨ 4095 < a → t.memory.read a = s.memory.read a) ∧
      { t with memory := s.memory, halted := s.halted, freeCount := s.freeCount } = s := by
  obtain rfl | rfl := store <;> cases h
  all_goals
    exact ⟨fun a ha => read_storeHalfDone_outside _ _ s ha,
      congrArg (fun u : State => { u with halted := s.halted }) (storeHalfDone_frame _ _ s)⟩

/-- A load that faults has written no register above VX. -/
theorem Raises.load_precise {s t : State} {f : Fault} {x : Reg} (h : Raises s (.ldVxMem x) f t) :
    (∀ r, x < r → t.reg r = s.reg r) ∧ { t with V := s.V, halted := s.halted, freeCount := s.freeCount } = s := by
  cases h
  refine ⟨fun r hr => ?_, congrArg (fun u : State => { u with halted := s.halted }) (loadHalfDone_frame _ x s)⟩
  have above : ¬ r ≤ x := not_le.mpr hr
  exact (reg_loadHalfDone s.I.toNat x s r).trans (by simp [above])

/-- A draw that faults has written no register but VF. -/
theorem Raises.draw_precise {s t : State} {f : Fault} {x y : Reg} {n : Nibble} (h : Raises s (.drw x y n) f t) :
    (∀ r, r ≠ VF → t.reg r = s.reg r) ∧
      { t with V := s.V, display := s.display, halted := s.halted, freeCount := s.freeCount } = s := by
  cases h
  exact ⟨fun r hr => State.reg_setReg_other _ _ hr, rfl⟩

/-- Settles O50: the frame of `Raises` for each instruction, with the old latch, which was clear. -/
theorem faultingInstructionChangesNothingElse : Obligations.FaultingInstructionChangesNothingElse := by
  intro i s t f clear h latched
  have raises := raises_of_latched clear h latched
  rw [← clear]
  refine ⟨raises.only_latches, fun x => raises.store_precise, ?load, ?draw, raises.frame⟩
  case load => rintro x rfl; exact raises.load_precise
  case draw => rintro x y n rfl; exact raises.draw_precise

end Sys2Proof.Machine

/-! ## Proofs about the invariant (spec/10_state.md) -/

namespace Sys2Proof.Machine

/-- The cause of a raised fault stands in the state it was raised in, which holds at most 16 return addresses. -/
theorem Raises.raisedIn {s t : State} {i : Instr} {f : Fault} (h : Raises s i f t) (bounded : s.sp ≤ 16) :
    f.raisedIn s := by
  have := s.I.isLt
  cases h with
  | overflow nnn full => exact le_antisymm bounded full
  | underflow empty => exact List.length_eq_zero_iff.mpr empty
  | skp x noKey | sknp x noKey => exact noKey
  | drw | ldB | ldMemVx | ldVxMem => exact ⟨by omega, by omega⟩

theorem Completes.wf_memory {i : Instr} {s t : State} (h : Completes i s t) (wf : s.memory.wf = true) :
    t.memory.wf = true := by
  obtain same | ⟨-, bytes, fits, written⟩ := h.memory
  · exact same ▸ wf
  · exact written ▸ Memory.wf_writeBytes wf fits

theorem Raises.wf_memory {s t : State} {i : Instr} {f : Fault} (h : Raises s i f t) (wf : s.memory.wf = true) :
    t.memory.wf = true := by
  obtain same | ⟨-, bytes, written⟩ := h.memory
  · exact same ▸ wf
  · exact written ▸ Memory.wf_writeChosen wf

/-- The bounds that the invariant sets to `pc` and the stack. -/
structure ControlBounded (s : State) : Prop where
  stack : s.sp ≤ 16
  returns : ∀ v ∈ s.stack, 2 ≤ v.toNat ∧ v.toNat ≤ 4096
  pc : s.pc.toNat ≤ 0x10FE

/-- An instruction that was fetched, so that `pc` is from 2 to 4096, moves `pc` and the stack inside their bounds. -/
theorem Transfers.bounded {s t : State} (h : Transfers s t) (hs : ControlBounded s)
    (lo : 2 ≤ s.pc.toNat) (hi : s.pc.toNat ≤ 4096) : ControlBounded t := by
  have same_stack (stack : t.stack = s.stack) (pc : t.pc.toNat ≤ 0x10FE) : ControlBounded t :=
    ⟨by rw [State.sp, stack]; exact hs.stack, stack ▸ hs.returns, pc⟩
  cases h with
  | forward stack pc =>
    refine same_stack stack ?_
    obtain pc | pc := pc
    · exact pc ▸ hs.pc
    · rw [pc]; bv_omega
  | wait stack pc => exact same_stack stack (by rw [pc]; bv_omega)
  | jump stack pc => exact same_stack stack pc
  | call room stack pc =>
    refine ⟨by rw [State.sp, stack]; exact room, ?_, by omega⟩
    rw [stack]
    exact List.forall_mem_cons.mpr ⟨⟨lo, hi⟩, hs.returns⟩
  | ret stack =>
    obtain ⟨depth, returns, -⟩ := hs
    rw [State.sp, stack, List.length_cons] at depth
    rw [stack, List.forall_mem_cons] at returns
    exact ⟨by rw [State.sp]; omega, returns.2, by omega⟩

theorem State.Inv.controlBounded {s : State} (h : s.Inv) : ControlBounded s :=
  ⟨h.stackBounded, h.returnAddresses, h.pcBounded⟩

theorem ControlBounded.inv {s : State} (h : ControlBounded s) (wf : s.memory.wf = true)
    (latch : ∀ f, s.halted = some f → f.raisedIn s) : s.Inv :=
  ⟨wf, h.stack, h.returns, h.pc, latch⟩

theorem ControlBounded.congr {s t : State} (h : ControlBounded s) (pc : t.pc = s.pc) (stack : t.stack = s.stack) :
    ControlBounded t :=
  ⟨by rw [State.sp, stack]; exact h.stack, stack ▸ h.returns, pc ▸ h.pc⟩

theorem exec_keeps_inv {i : Instr} {s t : State} (inv : s.Inv) (clear : s.halted = none) (lo : 2 ≤ s.pc.toNat)
    (hi : s.pc.toNat ≤ 4096) (h : exec i s = .next t) : t.Inv := by
  obtain completes | ⟨f, raises⟩ := exec_next_cases h
  · refine (completes.transfers.bounded inv.controlBounded lo hi).inv (completes.wf_memory inv.memoryCanonical) ?_
    simp [completes.halted, clear]
  · refine (inv.controlBounded.congr raises.pc raises.stack).inv (raises.wf_memory inv.memoryCanonical)
      fun g latched => ?_
    obtain rfl : f = g := Option.some.inj (raises.latches.symm.trans latched)
    exact Fault.raisedIn_congr raises.pc raises.stack (raises.raisedIn inv.stackBounded)

/-- Settles O53: a fetch that fails latches its own cause, and otherwise `pc` is at most 4094 before the advance, which
keeps it far below its bound and non-zero for the instruction. -/
theorem stepKeepsTheInvariant : Obligations.StepKeepsTheInvariant := by
  intro s t inv hstep
  have ⟨wf, depth, returns, pc, _⟩ := inv
  obtain ⟨clear, ⟨beyond, rfl⟩ | ⟨inside, op, -, rest⟩⟩ := step_cases hstep
  · refine ⟨wf, depth, returns, pc, ?_⟩
    rintro f ⟨⟩
    exact ⟨rfl, beyond⟩
  have advanced : (s.pc + 2).toNat = s.pc.toNat + 2 := by bv_omega
  have fetched : ({ s with pc := s.pc + 2 } : State).Inv :=
    ⟨wf, depth, returns, by simp only [advanced]; omega, by simp [clear]⟩
  obtain ⟨e, -, rfl⟩ | ⟨i, -, hexec⟩ := rest
  · exact fetched
  · exact exec_keeps_inv fetched clear (by simp only [advanced]; omega) (by simp only [advanced]; omega) hexec

end Sys2Proof.Machine

/-! ## Proofs about memory: reads after writes, the canonical form (spec/20_memory.md) -/

namespace Sys2Proof.Machine

/-! ### What is read after bytes are written -/

theorem Memory.read_writeBytes_at {m : Memory} {b k : Nat} {vs : List Byte} (hk : k < vs.length) :
    (m.writeBytes b vs).read (b + k) = vs.getD k 0 := by
  rw [Memory.read_writeBytes, if_pos (by omega), Nat.add_sub_cancel_left]

theorem Memory.read_writeBytes_outside {m : Memory} {a b : Nat} {vs : List Byte} (ha : a < b ∨ b + vs.length ≤ a) :
    (m.writeBytes b vs).read a = m.read a := by
  rw [Memory.read_writeBytes, if_neg (by omega)]

/-! ### Canonical memories -/

/-- A canonical memory that begins with an entry does not read as unlisted there. -/
theorem Memory.read_head_ne {lo a : Nat} {v : Byte} {m : Memory} (h : Memory.wfFrom lo ((a, v) :: m) = true) :
    Memory.read ((a, v) :: m) a ≠ Memory.background a := by
  simpa [Memory.read] using (Memory.wfFrom_cons.mp h).2.2.1

/-- Below its first entry a canonical memory reads as unlisted. -/
theorem Memory.read_before_head {lo a b : Nat} {v : Byte} {m : Memory} (h : Memory.wfFrom lo ((b, v) :: m) = true)
    (hab : a < b) : Memory.read ((b, v) :: m) a = Memory.background a := by
  obtain ⟨-, rest⟩ := Memory.wfFrom_cons.mp h
  exact Memory.read_below (lo := b) (Memory.wfFrom_cons.mpr ⟨le_refl b, rest⟩) hab

/-- The tails of two memories that begin at one address and read alike read alike: both as unlisted at that address. -/
theorem Memory.read_tail_eq {lo a : Nat} {v w : Byte} {m k : Memory} (hm : Memory.wfFrom lo ((a, v) :: m) = true)
    (hk : Memory.wfFrom lo ((a, w) :: k) = true)
    (h : ∀ c, Memory.read ((a, v) :: m) c = Memory.read ((a, w) :: k) c) (c : Nat) : m.read c = k.read c := by
  by_cases hc : c = a
  · obtain ⟨-, -, -, hm⟩ := Memory.wfFrom_cons.mp hm
    obtain ⟨-, -, -, hk⟩ := Memory.wfFrom_cons.mp hk
    rw [Memory.read_below hm (by omega), Memory.read_below hk (by omega)]
  · simpa [Memory.read, hc] using h c

/-- By induction on both lists: the first entries stand at one address, since the lower of two different ones would be
read as unlisted in the other memory. -/
theorem Memory.eq_of_read_eq {lo : Nat} {m k : Memory} (hm : Memory.wfFrom lo m = true)
    (hk : Memory.wfFrom lo k = true) (h : ∀ a, m.read a = k.read a) : m = k := by
  induction m generalizing lo k with
  | nil =>
    cases k with
    | nil => rfl
    | cons c k => exact absurd (h c.1).symm (Memory.read_head_ne hk)
  | cons c m ih =>
    obtain ⟨a, v⟩ := c
    cases k with
    | nil => exact absurd (h a) (Memory.read_head_ne hm)
    | cons d k =>
      obtain ⟨b, w⟩ := d
      obtain hab | rfl | hab := lt_trichotomy a b
      · exact absurd ((h a).trans (Memory.read_before_head hk hab)) (Memory.read_head_ne hm)
      · have value : v = w := by simpa [Memory.read] using h a
        have tail : m = k := by
          refine ih (lo := a + 1) ?_ ?_ (Memory.read_tail_eq hm hk h)
          · exact (Memory.wfFrom_cons.mp hm).2.2.2
          · exact (Memory.wfFrom_cons.mp hk).2.2.2
        rw [value, tail]
      · exact absurd ((h b).symm.trans (Memory.read_before_head hm hab)) (Memory.read_head_ne hk)

/-- Settles O47: the canonical form from address 0 on. -/
theorem canonicalMemoriesThatReadAlikeAreEqual : Obligations.CanonicalMemoriesThatReadAlikeAreEqual :=
  fun _ _ => Memory.eq_of_read_eq

end Sys2Proof.Machine

/-! ## Proofs about the host's operations (spec/48_host_interface.md, spec/70_reset_and_hazards.md) -/

namespace Sys2Proof.Machine

/-! ### The step as the host sees it -/

theorem step_latched {s : State} {f : Fault} (latched : s.halted = some f) : step s = .refused (.halted f) := by
  simp only [step, latched, refuseHalted]

/-- Settles O8: the fetch answers the fault, which is latched before `pc` advances. -/
theorem fetchAbove4094OnlyLatches : Obligations.FetchAbove4094OnlyLatches := by
  intro s clear beyond
  constructor
  · simp only [step, clear, fetch_outside beyond, raise]
  · simp only [stepReport, clear, fetch_outside beyond]

/-- Settles O9: the halt check comes first. -/
theorem haltedCoreRefusesToStep : Obligations.HaltedCoreRefusesToStep := by
  intro s f latched
  have refused := step_latched latched
  refine ⟨refused, ?_, ?_⟩
  · rw [refused, stateAfter_refused]
  · simp only [stepReport, latched]

/-! ### Memory after construction and after `load_font` -/

/-! (Stated by name: a `rfl` on these memories would write all 80 bytes.) -/

theorem construct_memory (seedInit : Word) : (construct seedInit).memory = Memory.blank := by simp only [construct]

theorem loadFont_memory (s : State) : (loadFont s).memory = s.memory.writeBytes params.fontBase params.font := by
  simp only [loadFont]

/-- `load_font` changes nothing but memory. -/
theorem loadFont_frame (s : State) : { loadFont s with memory := s.memory } = s := by
  cases s; simp only [loadFont]

/-- What is read after FONT is written to its place. -/
theorem Memory.read_writeFont (m : Memory) (a : Nat) :
    (m.writeBytes params.fontBase params.font).read a = if a < 80 then params.font.getD a 0 else m.read a := by
  rw [Memory.read_writeBytes, fontBase_eq, length_font]
  simp

/-- Unlisted memory is the font and zeros. -/
theorem Memory.read_nil (a : Nat) : Memory.read [] a = if a < 80 then params.font.getD a 0 else 0 := by
  rw [Memory.read, Memory.background_eq]
  by_cases h : a < 80
  · rw [if_pos h]
  · rw [if_neg h, List.getD_eq_default _ _ (by rw [length_font]; omega)]

/-- The font written into blank memory gives the contents after reset: both are canonical and read alike. -/
theorem Memory.blank_writeFont : Memory.blank.writeBytes params.fontBase params.font = [] := by
  refine canonicalMemoriesThatReadAlikeAreEqual _ [] (Memory.wf_writeFont Memory.wf_blank) rfl fun a => ?_
  rw [Memory.read_writeFont, Memory.read_blank, Memory.read_nil]

/-! ### The invariant over schedules -/

/-- An operation that keeps `pc`, the stack and the latch keeps the invariant, if it keeps memory canonical. -/
theorem State.Inv.of_same_control {s t : State} (inv : s.Inv) (wf : t.memory.wf = true) (pc : t.pc = s.pc)
    (stack : t.stack = s.stack) (halted : t.halted = s.halted) : t.Inv :=
  (inv.controlBounded.congr pc stack).inv wf fun f latched =>
    Fault.raisedIn_congr pc stack (inv.latchSound f (halted ▸ latched))

/-- At reset the stack is empty, `pc` is 512 and no fault is latched, whatever memory, seed and counter are. -/
theorem reset_controlBounded : ControlBounded State.reset :=
  ⟨by decide, by simp [State.reset], by decide⟩

theorem reset_inv_with (m : Memory) (wf : m.wf = true) (seed : Word) (freeCount : Nat) :
    ({ State.reset with memory := m, seed := seed, freeCount := freeCount } : State).Inv :=
  have bounded : ControlBounded { State.reset with memory := m, seed := seed, freeCount := freeCount } :=
    reset_controlBounded.congr rfl rfl
  bounded.inv wf fun _ latched => nomatch latched

/-- Settles O52: the two states differ from reset in memory and seed alone, and both memories are canonical. -/
theorem invariantHoldsAtReset : Obligations.InvariantHoldsAtReset :=
  ⟨reset_inv_with [] rfl _ _, fun seedInit => reset_inv_with Memory.blank Memory.wf_blank seedInit _⟩

theorem perform_keeps_inv (seedInit : Word) (op : HostOp) {s : State} (inv : s.Inv) :
    (stateAfter s (perform seedInit op s)).Inv := by
  cases op with
  | loadFont =>
    have wf : (loadFont s).memory.wf = true := loadFont_memory s ▸ Memory.wf_writeFont inv.memoryCanonical
    exact inv.of_same_control wf (loadFont_pc s) (loadFont_stack s) (loadFont_halted s)
  | loadProgram image =>
    obtain ⟨fits, h⟩ | ⟨-, h⟩ := loadProgram_cases image s <;> rw [perform, h]
    · exact inv.of_same_control (Memory.wf_writeBytes inv.memoryCanonical (by omega)) rfl rfl rfl
    · exact inv
  | reset => exact reset_inv_with [] rfl seedInit s.freeCount
  | step =>
    rw [perform]
    obtain ⟨t, h⟩ | ⟨f, -, h⟩ := nothingStopsButALatchedFault.2 s <;> rw [h]
    · exact stepKeepsTheInvariant s t inv h
    · exact inv
  | setKey index pressed =>
    obtain ⟨k, -, h⟩ | ⟨-, h⟩ := setKey_cases index pressed s <;> rw [perform, h]
    · exact inv.of_same_control inv.memoryCanonical rfl rfl rfl
    · exact inv
  | tickTimer | acknowledgeRedraw => exact inv.of_same_control inv.memoryCanonical rfl rfl rfl

/-- Settles O54, by induction on the schedule: each operation keeps the invariant. -/
theorem hostSchedulesKeepTheInvariant : Obligations.HostSchedulesKeepTheInvariant := by
  intro seedInit ops
  induction ops with
  | nil => exact fun s inv => inv
  | cons op ops ih => exact fun s inv => ih _ (perform_keeps_inv seedInit op inv)

/-! ### A latched fault -/

/-- `t` with the elements that the host may write while a fault is latched (memory, timers, keys, the redraw flag) taken
from `s`. -/
def State.withHostElements (t s : State) : State :=
  { t with memory := s.memory, DT := s.DT, ST := s.ST, keypad := s.keypad, redrawPending := s.redrawPending }

/-- No operation short of `reset` changes anything else while a fault is latched. -/
theorem perform_latched (seedInit : Word) {op : HostOp} {s : State} {f : Fault} (latched : s.halted = some f)
    (notReset : op ≠ .reset) : (stateAfter s (perform seedInit op s)).withHostElements s = s := by
  cases op with
  | reset => exact absurd rfl notReset
  | step => rw [perform, step_latched latched]; rfl
  | loadFont => simp only [perform, stateAfter_next, State.withHostElements, loadFont_eq]
  | tickTimer | acknowledgeRedraw => rfl
  | loadProgram image =>
    obtain ⟨-, h⟩ | ⟨-, h⟩ := loadProgram_cases image s <;> rw [perform, h] <;> rfl
  | setKey index pressed =>
    obtain ⟨k, -, h⟩ | ⟨-, h⟩ := setKey_cases index pressed s <;> rw [perform, h] <;> rfl

theorem runSchedule_latched (seedInit : Word) (ops : List HostOp) {s : State} {f : Fault} (latched : s.halted = some f)
    (noReset : HostOp.reset ∉ ops) : (runSchedule seedInit ops s).withHostElements s = s := by
  induction ops generalizing s with
  | nil => rfl
  | cons op ops ih =>
    obtain ⟨notReset, noReset⟩ := List.ne_and_not_mem_of_not_mem_cons noReset
    rw [runSchedule]
    have first := perform_latched seedInit latched notReset.symm
    generalize stateAfter s (perform seedInit op s) = t at first ⊢
    have latched' : t.halted = some f := (congrArg State.halted first).trans latched
    have others := ih latched' noReset
    calc (runSchedule seedInit ops t).withHostElements s
      _ = ((runSchedule seedInit ops t).withHostElements t).withHostElements s := rfl
      _ = t.withHostElements s := by rw [others]
      _ = s := first

/-- Settles O51, by induction on the schedule: an operation short of `reset` keeps the latch among the rest, so that the
next one meets a latched fault again. -/
theorem fatalFaultLatchesUntilReset : Obligations.FatalFaultLatchesUntilReset := by
  intro seedInit ops s f latched noReset
  have frame := runSchedule_latched seedInit ops latched noReset
  have latched' : (runSchedule seedInit ops s).halted = some f := (congrArg State.halted frame).trans latched
  exact ⟨latched', step_latched latched', frame⟩

/-! ### Ticks -/

/-- Settles O36, by induction on the number of ticks: one takes each timer down by one, saturating. -/
theorem ticksCountDownAndSaturate : Obligations.TicksCountDownAndSaturate := by
  intro seedInit k
  induction k with
  | zero => exact fun s => ⟨rfl, rfl, rfl⟩
  | succ k ih =>
    intro s
    obtain ⟨dt, st, frame⟩ := ih (tickTimer s)
    have hdt : (tickTimer s).DT.toNat = s.DT.toNat - 1 := toNat_tickDown s.DT
    have hst : (tickTimer s).ST.toNat = s.ST.toNat - 1 := toNat_tickDown s.ST
    rw [List.replicate_succ, runSchedule, perform, stateAfter_next]
    exact ⟨by omega, by omega, congrArg (fun u : State => { u with DT := s.DT, ST := s.ST }) frame⟩

/-! ### Reset and loading -/

/-- Settles O55: each element at its reset value, and unlisted memory is the font and zeros. -/
theorem resetRestoresTheInitialState : Obligations.ResetRestoresTheInitialState := by
  intro seedInit s
  refine ⟨rfl, ?regs, rfl, rfl, rfl, rfl, ?keys, ?cells, rfl, rfl, rfl, rfl, ?memory, rfl⟩
  case regs => intro r; simp [hostReset, State.reset, State.reg, Vector.get_eq_getElem]
  case keys => intro k; simp [hostReset, State.reset, State.key, Vector.get_eq_getElem]
  case cells => intro cx cy; simp [hostReset, State.reset, State.cell, Vector.get_eq_getElem]
  case memory => exact Memory.read_nil

/-- Settles O56: construction differs from reset in memory and seed, and the font makes memory that of reset. -/
theorem constructionThenLoadFontIsReset : Obligations.ConstructionThenLoadFontIsReset := by
  intro seedInit s
  constructor
  · rw [construct_memory]
    exact Memory.read_blank
  · rw [loadFont_eq, construct_memory, Memory.blank_writeFont]
    rfl

/-- Settles O57: the bytes are those of the write, and memory is the one field written. -/
theorem loadFontCopiesTheGlyphTable : Obligations.LoadFontCopiesTheGlyphTable := by
  refine ⟨length_font, rfl, fun s => ⟨fun a => ?_, loadFont_frame s⟩⟩
  rw [loadFont_memory, Memory.read_writeFont]

/-- Settles O58: an image that fits is written to 512 and nothing else is; a longer one has no transition. -/
theorem loadProgramCopiesVerbatim : Obligations.LoadProgramCopiesVerbatim := by
  intro image s
  obtain ⟨fits, h⟩ | ⟨long, h⟩ := loadProgram_cases image s
  · exact ⟨fun _ => ⟨_, h, fun k => Memory.read_writeBytes_at, fun a => Memory.read_writeBytes_outside, rfl⟩,
      fun long => by omega⟩
  · exact ⟨fun fits => by omega, fun _ => h⟩

/-! ### Keys, the acknowledge, the display -/

/-- Settles O59, by the two outcomes of `set_key`; the acknowledge is one field's update. -/
theorem setKeyAndAcknowledge : Obligations.SetKeyAndAcknowledge := by
  intro pressed s
  refine ⟨fun k => ?_, fun index outside => ?_, rfl⟩
  · obtain ⟨j, hj, h⟩ | ⟨outside, -⟩ := setKey_cases k.val pressed s
    · obtain rfl : j = k := Fin.ext hj
      exact ⟨_, h, by simp [key_set], fun j hj => by simp [key_set, hj], rfl⟩
    · omega
  · obtain ⟨j, hj, -⟩ | ⟨-, h⟩ := setKey_cases index pressed s
    · omega
    · exact h

theorem readDisplay_eq (s : State) (index : Fin 2048) :
    readDisplay s index = s.cell ⟨index.val % 64, by omega⟩ ⟨index.val / 64, by omega⟩ := rfl

/-- Settles O60: column and row are the remainder and the quotient of the index by 64. -/
theorem displayIsReadRowMajor : Obligations.DisplayIsReadRowMajor := by
  intro s cx cy index h
  rw [readDisplay_eq]
  congr <;> omega

end Sys2Proof.Machine

/-! ## Proofs about jumps, calls and skips (spec/41_control_flow.md) -/

namespace Sys2Proof.Machine

theorem exec_ret (s : State) : exec .ret s = execRet s := rfl

theorem exec_call (nnn : Addr12) (s : State) : exec (.call nnn) s = execCall nnn s := rfl

/-- R144: JP V0, NNN answers, from every state, the state with `pc` written. -/
theorem exec_jpV0 (nnn : Addr12) (s : State) : exec (.jpV0 nnn) s = .next (s.setPc (jumpOffsetTarget nnn s)) := rfl

/-- Settles O11, by the two outcomes of RET. -/
theorem returnPopsOrUnderflows : Obligations.ReturnPopsOrUnderflows := by
  refine ⟨fun s v rest hs => ?_, fun s hs => ?_⟩ <;> rw [exec_ret]
  · obtain ⟨w, others, hs', h⟩ | ⟨hs', -⟩ := execRet_cases s
    · obtain ⟨rfl, rfl⟩ := List.cons.inj (hs.symm.trans hs')
      exact h
    · exact absurd (hs.symm.trans hs') (List.cons_ne_nil v rest)
  · obtain ⟨w, others, hs', -⟩ | ⟨-, h⟩ := execRet_cases s
    · exact absurd (hs'.symm.trans hs) (List.cons_ne_nil w others)
    · exact h

/-- CALL with room on the stack (R142). -/
theorem exec_call_room {nnn : Addr12} {s : State} (room : s.sp < 16) :
    exec (.call nnn) s = .next { s with pc := nnn.setWidth 16, stack := s.pc :: s.stack } := by
  rw [exec_call]
  obtain ⟨-, h⟩ | ⟨full, -⟩ := execCall_cases nnn s
  · exact h
  · omega

/-- Settles O13, by the two outcomes of CALL. -/
theorem callPushesOrOverflows : Obligations.CallPushesOrOverflows := by
  intro nnn s
  refine ⟨exec_call_room, fun full => ?_⟩
  rw [exec_call]
  obtain ⟨room, -⟩ | ⟨-, h⟩ := execCall_cases nnn s
  · omega
  · exact h

/-- Settles O16: the CALL leaves its next address on top of the old stack, and RET takes what is on top. -/
theorem returnGoesBackAfterTheCall : Obligations.ReturnGoesBackAfterTheCall := by
  intro nnn s t u room hcall hstack
  obtain rfl := Host.Outcome.next.inj ((exec_call_room room).symm.trans hcall)
  exact returnPopsOrUnderflows.1 u s.pc s.stack hstack

/-- Settles O14: the sum of 12 bits and 8 bits fits 16 bits. -/
theorem jumpWithOffsetAddsV0 : Obligations.JumpWithOffsetAddsV0 := by
  intro nnn s
  exact ⟨_, exec_jpV0 nnn s, toNat_jumpOffsetTarget nnn s, rfl⟩

theorem skipIf_decide (p : Prop) [Decidable p] (s : State) :
    skipIf (decide p) s = { s with pc := if p then s.pc + 2 else s.pc } := by
  simp only [skipIf_eq, decide_eq_true_eq]

theorem skipIf_not_decide (p : Prop) [Decidable p] (s : State) :
    skipIf (!decide p) s = { s with pc := if p then s.pc else s.pc + 2 } := by
  by_cases h : p <;> simp [skipIf_eq, h]

/-- Settles O15: each skip is `skipIf` of its test, equality or its negation. -/
theorem skipsTestRegisters : Obligations.SkipsTestRegisters := by
  intro x y nn s
  refine ⟨?_, ?_, ?_, ?_⟩
  · exact congrArg _ (skipIf_decide (s.reg x = nn) s)
  · exact congrArg _ (skipIf_not_decide (s.reg x = nn) s)
  · exact congrArg _ (skipIf_decide (s.reg x = s.reg y) s)
  · exact congrArg _ (skipIf_not_decide (s.reg x = s.reg y) s)

end Sys2Proof.Machine

/-! ## Proofs about the register and arithmetic instructions (spec/42_register_alu.md) -/

namespace Sys2Proof.Machine

/-! ### One register written, no flag -/

/-- What a single register write says of every register and of the rest of the state. -/
theorem State.setReg_cases (s : State) (x : Reg) (v : Byte) :
    (s.setReg x v).reg x = v ∧ (∀ r, r ≠ x → (s.setReg x v).reg r = s.reg r) ∧
      { s.setReg x v with V := s.V } = s :=
  ⟨s.reg_setReg_self x v, fun _ hr => s.reg_setReg_other v hr, s.setReg_frame x v⟩

/-- Settles O18: one register write, of the value read before. -/
theorem copySetsTheRegister : Obligations.CopySetsTheRegister :=
  fun x y s => ⟨s.setReg x (s.reg y), rfl, s.setReg_cases x _⟩

/-- Settles O19: one register write, of the sum reduced mod 256. -/
theorem addImmediateWrapsWithoutFlag : Obligations.AddImmediateWrapsWithoutFlag := by
  intro x nn s
  obtain ⟨written, others, frame⟩ := s.setReg_cases x (sumByte (s.reg x) nn)
  exact ⟨_, rfl, by rw [written, toNat_sumByte], others, frame⟩

/-! ### A result and a flag, the flag last -/

/-- Settles O20: a result and the flag 0. -/
theorem logicalOperationsZeroVF : Obligations.LogicalOperationsZeroVF := by
  intro x y s
  have flagged (result : Byte) :
      (writeFlagged x result false s).reg VF = 0 ∧ (x ≠ VF → (writeFlagged x result false s).reg x = result) ∧
        (∀ r, r ≠ x → r ≠ VF → (writeFlagged x result false s).reg r = s.reg r) ∧
        { writeFlagged x result false s with V := s.V } = s := by
    obtain ⟨flag, written, others⟩ := writeFlagged_cases x result false s
    exact ⟨flag, written, others, writeFlagged_frame ..⟩
  exact ⟨⟨_, rfl, flagged (s.reg x ||| s.reg y)⟩, ⟨_, rfl, flagged (s.reg x &&& s.reg y)⟩,
    ⟨_, rfl, flagged (s.reg x ^^^ s.reg y)⟩⟩

/-- Settles O21: the sum mod 256 and the carry, both of the operands read before. -/
theorem addRegistersSetsCarry : Obligations.AddRegistersSetsCarry := by
  intro x y s
  obtain ⟨flag, written, others⟩ :=
    writeFlagged_cases x (sumByte (s.reg x) (s.reg y)) (carryOut (s.reg x) (s.reg y)) s
  refine ⟨_, rfl, ?carry, fun hx => ?sum, others, writeFlagged_frame ..⟩
  case carry => rw [flag]; exact toNat_flagByte _
  case sum => rw [written hx, toNat_sumByte]

/-- The difference mod 256 of two bytes, as the integer remainder. -/
theorem toInt_differenceByte (a b : Byte) :
    ((differenceByte a b).toNat : Int) = (a.toNat - b.toNat : Int) % 256 := by
  have := a.isLt
  have := b.isLt
  rw [toNat_differenceByte]
  omega

/-- A difference and its not-borrow, written with the flag last (R167, R170). -/
theorem writeDifference_cases (x : Reg) (a b : Byte) (s : State) :
    ((writeFlagged x (differenceByte a b) (notBorrow a b) s).reg VF).toNat = (if a.toNat ≥ b.toNat then 1 else 0) ∧
      (x ≠ VF → (((writeFlagged x (differenceByte a b) (notBorrow a b) s).reg x).toNat : Int) =
        (a.toNat - b.toNat : Int) % 256) ∧
      (∀ r, r ≠ x → r ≠ VF → (writeFlagged x (differenceByte a b) (notBorrow a b) s).reg r = s.reg r) ∧
      { writeFlagged x (differenceByte a b) (notBorrow a b) s with V := s.V } = s := by
  obtain ⟨flag, written, others⟩ := writeFlagged_cases x (differenceByte a b) (notBorrow a b) s
  refine ⟨?notBorrow, fun hx => ?difference, others, writeFlagged_frame ..⟩
  case notBorrow => rw [flag]; exact toNat_flagByte _
  case difference => rw [written hx, toInt_differenceByte]

/-- Settles O22: SUB and SUBN write one difference, with the operands exchanged. -/
theorem subtractionsSetNotBorrow : Obligations.SubtractionsSetNotBorrow := fun x y s =>
  ⟨⟨_, rfl, writeDifference_cases x (s.reg x) (s.reg y) s⟩,
    ⟨_, rfl, writeDifference_cases x (s.reg y) (s.reg x) s⟩⟩

theorem toNat_flagByte_droppedRight (v : Byte) : (flagByte (droppedRight v)).toNat = v.toNat % 2 := by
  rw [droppedRight, BitVec.getLsbD, Nat.testBit_zero, toNat_flagByte]
  split <;> omega

theorem toNat_flagByte_droppedLeft (v : Byte) : (flagByte (droppedLeft v)).toNat = v.toNat / 128 := by
  have := v.isLt
  rw [droppedLeft, BitVec.getLsbD, Nat.testBit_eq_decide_div_mod_eq, toNat_flagByte]
  split <;> omega

/-- Settles O23: the source of both shifts is V[X], whose halves and doubles and dropped bits are arithmetic. -/
theorem shiftsDropTheirBitIntoVF : Obligations.ShiftsDropTheirBitIntoVF := by
  intro x y s
  constructor
  · obtain ⟨flag, written, others⟩ := writeFlagged_cases x (s.reg x >>> 1) (droppedRight (s.reg x)) s
    refine ⟨writeFlagged x (s.reg x >>> 1) (droppedRight (s.reg x)) s, rfl, ?dropped, fun hx => ?half, others,
      writeFlagged_frame ..⟩
    case dropped => rw [flag, toNat_flagByte_droppedRight]
    case half => rw [written hx, BitVec.toNat_ushiftRight, Nat.shiftRight_eq_div_pow]
  · obtain ⟨flag, written, others⟩ := writeFlagged_cases x (s.reg x <<< 1) (droppedLeft (s.reg x)) s
    refine ⟨writeFlagged x (s.reg x <<< 1) (droppedLeft (s.reg x)) s, rfl, ?dropped, fun hx => ?double, others,
      writeFlagged_frame ..⟩
    case dropped => rw [flag, toNat_flagByte_droppedLeft]
    case double => rw [written hx, BitVec.toNat_shiftLeft, Nat.shiftLeft_eq]

/-! ### Random and timers (spec/43_random.md, spec/46_timers.md) -/

/-- R193: RND VX, NN answers, from every state, the state with the next seed and the one register written. -/
theorem exec_rnd (x : Reg) (nn : Byte) (s : State) :
    exec (.rnd x nn) s = .next ((nextRandom s).2.setReg x (lowByte (nextRandom s).1 &&& nn)) := rfl

theorem lowByte_eq (op : Word) : lowByte op = op.setWidth 8 := rfl

/-- Settles O25: one draw, then one register write of the masked low byte of the new seed. -/
theorem randomDrawsOnceAndMasks : Obligations.RandomDrawsOnceAndMasks := by
  intro x nn s
  refine ⟨_, exec_rnd x nn s, ?seed, ?written, fun r hr => ?others, rfl⟩
  case seed => exact nextSeed_toNat s.seed
  case written => exact State.reg_setReg_self _ x _
  case others => exact State.reg_setReg_other _ _ hr

/-- Settles O34: one register write of DT, and the two timer writes. -/
theorem timerInstructionsMoveAByte : Obligations.TimerInstructionsMoveAByte :=
  fun x s => ⟨⟨s.setReg x s.DT, rfl, s.setReg_cases x _⟩, rfl, rfl⟩

/-- Settles O38: one write of `I` each, the sum reduced by the width of `I`. -/
theorem settingAndAddingToI : Obligations.SettingAndAddingToI := by
  refine ⟨fun nnn s => rfl, fun x s => ⟨s.setI (s.I + byteWord (s.reg x)), rfl, ?_, s.setI_frame _⟩⟩
  have := (s.reg x).isLt
  rw [State.setI_I, byteWord_eq, BitVec.toNat_add, BitVec.toNat_setWidth]
  omega

/-! ### CLS (spec/44_display.md) -/

/-- Settles O27: every row of the blank display is zero. -/
theorem clearScreenBlanksEveryCell : Obligations.ClearScreenBlanksEveryCell := by
  intro s
  exact ⟨_, rfl, fun cx cy => by simp [State.cell, Vector.get_eq_getElem], rfl, rfl⟩

end Sys2Proof.Machine

/-! ## Proofs about the keypad (spec/45_input.md) -/

namespace Sys2Proof.Machine

theorem exec_skp (x : Reg) (s : State) : exec (.skp x) s = execSkp x s := rfl

theorem exec_sknp (x : Reg) (s : State) : exec (.sknp x) s = execSknp x s := rfl

theorem exec_ldVxK (x : Reg) (s : State) : exec (.ldVxK x) s = execLdVxK x s := rfl

/-- Settles O31, by the two outcomes of each: a key that V[X] names, or a value above 15. -/
theorem keySkipsTestTheNamedKey : Obligations.KeySkipsTestTheNamedKey := by
  intro x s
  rw [exec_skp, exec_sknp]
  obtain ⟨k, hk, skp⟩ | ⟨outside, skp⟩ := execSkp_cases x s
  · obtain ⟨j, hj, sknp⟩ | ⟨outside, -⟩ := execSknp_cases x s
    · obtain rfl : j = k := Fin.ext (hj.trans hk.symm)
      refine ⟨fun i hi => ?_, fun outside => by omega⟩
      obtain rfl : j = i := Fin.ext (hk.trans hi)
      exact ⟨skp, by rw [sknp]; cases s.key j <;> rfl⟩
    · omega
  · obtain ⟨j, hj, -⟩ | ⟨-, sknp⟩ := execSknp_cases x s
    · omega
    · exact ⟨fun i hi => by omega, fun _ => ⟨skp, sknp⟩⟩

/-- The key wait with no key pressed (R223). -/
theorem exec_ldVxK_none {x : Reg} {s : State} (noKey : ∀ k, s.key k = false) :
    exec (.ldVxK x) s = .next { s with pc := s.pc - 2 } := by
  rw [exec_ldVxK]
  obtain ⟨k, pressed, -⟩ | ⟨-, h⟩ := execLdVxK_cases x s
  · simp [noKey k] at pressed
  · exact h

theorem toNat_keyByte (k : Key) : (keyByte k).toNat = k.val := by
  have := k.isLt
  simp [keyByte]; omega

/-- Settles O32: the scan finds the one pressed key below which none is, and otherwise steps back. -/
theorem keyWaitTakesTheLowestPressedKey : Obligations.KeyWaitTakesTheLowestPressedKey := by
  intro x s
  refine ⟨fun k pressed lowest => ?_, exec_ldVxK_none⟩
  have found : firstPressed s = some k := firstPressed_eq_some.mpr ⟨pressed, lowest⟩
  refine ⟨{ s.setReg x (keyByte k) with keyWaitLatch := some k }, by rw [exec_ldVxK, execLdVxK, found], ?_,
    fun r hr => s.reg_setReg_other _ hr, rfl, rfl⟩
  exact (congrArg BitVec.toNat (s.reg_setReg_self x _)).trans (toNat_keyByte k)

/-- Settles O33: the key wait takes back the fetch's advance. -/
theorem keyWaitWithoutAKeyChangesNothing : Obligations.KeyWaitWithoutAKeyChangesNothing := by
  intro x s clear hpc hdec noKey
  have waits : exec (.ldVxK x) { s with pc := s.pc + 2 } = .next { s with pc := s.pc + 2 - 2 } := exec_ldVxK_none noKey
  have same : step s = .next s := by rw [step_decoded clear hpc hdec, waits, BitVec.add_sub_cancel]
  exact ⟨same, by rw [stepReport_decoded clear hpc hdec, same, reportOf_clear clear]⟩

end Sys2Proof.Machine

/-! ## Proofs about stores and loads through `I` (spec/47_memory_index.md) -/

namespace Sys2Proof.Machine

/-! ### Each instruction, where all its bytes have an address and where one has none -/

theorem exec_ldB (x : Reg) (s : State) : exec (.ldB x) s = execLdB x s := rfl

theorem exec_ldMemVx (x : Reg) (s : State) : exec (.ldMemVx x) s = execLdMemVx x s := rfl

theorem exec_ldVxMem (x : Reg) (s : State) : exec (.ldVxMem x) s = execLdVxMem x s := rfl

theorem exec_ldB_inside {x : Reg} {s : State} (inside : s.I.toNat + 2 ≤ 4095) :
    exec (.ldB x) s = .next { s with memory := s.memory.writeBytes s.I.toNat (decimalDigits (s.reg x)) } := by
  rw [exec_ldB]
  obtain ⟨-, h⟩ | ⟨beyond, -⟩ := execLdB_cases x s
  · exact h
  · omega

theorem exec_ldB_beyond {x : Reg} {s : State} (beyond : 4095 < s.I.toNat + 2) :
    exec (.ldB x) s = .next { storeHalfDone s.I.toNat (decimalDigits (s.reg x)) s with
      halted := some (.dataAddressOutOfRange (max s.I.toNat 4096)) } := by
  rw [exec_ldB]
  obtain ⟨inside, -⟩ | ⟨-, h⟩ := execLdB_cases x s
  · omega
  · exact h

theorem exec_ldMemVx_inside {x : Reg} {s : State} (inside : s.I.toNat + x.val ≤ 4095) :
    exec (.ldMemVx x) s =
      .next { s with memory := s.memory.writeBytes s.I.toNat (regsThrough x s), I := indexAfter x s } := by
  rw [exec_ldMemVx]
  obtain ⟨-, h⟩ | ⟨beyond, -⟩ := execLdMemVx_cases x s
  · exact h
  · omega

theorem exec_ldMemVx_beyond {x : Reg} {s : State} (beyond : 4095 < s.I.toNat + x.val) :
    exec (.ldMemVx x) s = .next { storeHalfDone s.I.toNat (regsThrough x s) s with
      halted := some (.dataAddressOutOfRange (max s.I.toNat 4096)) } := by
  rw [exec_ldMemVx]
  obtain ⟨inside, -⟩ | ⟨-, h⟩ := execLdMemVx_cases x s
  · omega
  · exact h

theorem exec_ldVxMem_inside {x : Reg} {s : State} (inside : s.I.toNat + x.val ≤ 4095) :
    exec (.ldVxMem x) s =
      .next ((setRegs ((List.range (x + 1)).map fun k => s.memory.read (s.I.toNat + k)) s).setI (indexAfter x s)) := by
  rw [exec_ldVxMem]
  obtain ⟨-, h⟩ | ⟨beyond, -⟩ := execLdVxMem_cases x s
  · exact h
  · omega

theorem exec_ldVxMem_beyond {x : Reg} {s : State} (beyond : 4095 < s.I.toNat + x.val) :
    exec (.ldVxMem x) s = .next { loadHalfDone s.I.toNat x s with
      halted := some (.dataAddressOutOfRange (max s.I.toNat 4096)) } := by
  rw [exec_ldVxMem]
  obtain ⟨inside, -⟩ | ⟨-, h⟩ := execLdVxMem_cases x s
  · omega
  · exact h

/-! ### The bytes and the index -/

theorem toNat_indexAfter {x : Reg} {s : State} (inside : s.I.toNat + x.val ≤ 4095) :
    (indexAfter x s).toNat = s.I.toNat + x.val + 1 := by
  rw [indexAfter_eq, BitVec.toNat_ofNat]
  omega

/-- Digit k of the three, counted from the hundreds (R243). -/
theorem toNat_decimalDigits (v : Byte) {k : Nat} (hk : k < 3) :
    ((decimalDigits v).getD k 0).toNat = v.toNat / 10 ^ (2 - k) % 10 := by
  have := v.isLt
  interval_cases k <;> simp [decimalDigits] <;> omega

theorem getD_map_range {α : Type} (f : Nat → α) {n k : Nat} (d : α) :
    ((List.range n).map f).getD k d = if k < n then f k else d := by
  by_cases h : k < n <;> simp [List.getD_eq_getElem?_getD, h]

/-- The memory a completed LD B leaves, byte by byte. -/
theorem read_writeDigits (m : Memory) (a : Nat) (v : Byte) :
    (∀ k, k < 3 → ((m.writeBytes a (decimalDigits v)).read (a + k)).toNat = v.toNat / 10 ^ (2 - k) % 10) ∧
      ∀ b, b < a ∨ a + 2 < b → (m.writeBytes a (decimalDigits v)).read b = m.read b := by
  have length : (decimalDigits v).length = 3 := rfl
  refine ⟨fun k hk => ?_, fun b hb => Memory.read_writeBytes_outside (by omega)⟩
  rw [Memory.read_writeBytes_at (by omega), toNat_decimalDigits v hk]

/-- The memory a completed LD [I] leaves, byte by byte. -/
theorem read_writeRegs (m : Memory) (a : Nat) (x : Reg) (s : State) :
    (∀ r, r ≤ x → (m.writeBytes a (regsThrough x s)).read (a + r.val) = s.reg r) ∧
      ∀ b, b < a ∨ a + x.val < b → (m.writeBytes a (regsThrough x s)).read b = m.read b := by
  have length := length_regsThrough x s
  refine ⟨fun r hr => ?_, fun b hb => Memory.read_writeBytes_outside (by omega)⟩
  rw [Memory.read_writeBytes_at (length ▸ Nat.lt_succ_of_le hr), getD_regsThrough s hr]

/-! ### Accesses whose bytes all have an address -/

/-- Settles O39: three bytes written from `I` on; the hundreds of a byte are a single digit. -/
theorem decimalDigitsAreStored : Obligations.DecimalDigitsAreStored := by
  intro x s inside
  obtain ⟨digit, others⟩ := read_writeDigits s.memory s.I.toNat (s.reg x)
  have := (s.reg x).isLt
  refine ⟨_, exec_ldB_inside inside, ?_, digit 1 (by omega), ?_, others, rfl⟩
  · exact (digit 0 (by omega)).trans (by omega)
  · exact (digit 2 (by omega)).trans (by omega)

/-- Settles O40: X + 1 bytes written from `I` on, and the write of `I`. -/
theorem bulkStoreWritesV0ThroughVX : Obligations.BulkStoreWritesV0ThroughVX := by
  intro x s inside
  obtain ⟨stored, others⟩ := read_writeRegs s.memory s.I.toNat x s
  exact ⟨_, exec_ldMemVx_inside inside, stored, others, toNat_indexAfter inside, rfl⟩

/-- Settles O41: X + 1 registers written from the bytes read, and the write of `I`. -/
theorem bulkLoadReadsV0ThroughVX : Obligations.BulkLoadReadsV0ThroughVX := by
  intro x s inside
  refine ⟨_, exec_ldVxMem_inside inside, fun r hr => ?loaded, fun r hr => ?kept, toNat_indexAfter inside, ?frame⟩
  case loaded => rw [State.reg_setI, reg_setRegs, getD_map_range, if_pos (Nat.lt_succ_of_le hr)]
  case kept => rw [State.reg_setI, reg_setRegs, getD_map_range, if_neg (Nat.not_lt_of_le hr)]
  case frame => exact congrArg (fun u : State => { u with I := s.I }) (setRegs_frame _ s)

/-- Settles O44: the load reads, from the same `I`, the bytes that the store wrote. -/
theorem bulkLoadInvertsBulkStore : Obligations.BulkLoadInvertsBulkStore := by
  intro x s t regs inside hstore
  obtain ⟨t', ht', stored, -, index, -⟩ := bulkStoreWritesV0ThroughVX x s inside
  obtain rfl := Host.Outcome.next.inj (ht'.symm.trans hstore)
  obtain ⟨u, hu, loaded, kept, index', frame⟩ := bulkLoadReadsV0ThroughVX x { t' with I := s.I, V := regs } inside
  refine ⟨u, hu, fun r hr => ?_, kept, ?_, (congrArg State.memory frame :)⟩
  · rw [loaded r hr]; exact stored r hr
  · exact BitVec.eq_of_toNat_eq (index'.trans index.symm)

/-- Settles O46: both stores leave `pc`, and the next fetch reads the memory they leave. -/
theorem storedWordIsFetchedNext : Obligations.StoredWordIsFetchedNext := by
  intro x s hpc
  refine ⟨fun inside => ?regs, fun inside => ?digits⟩
  case regs =>
    obtain ⟨t, ht, stored, others, -, frame⟩ := bulkStoreWritesV0ThroughVX x s inside
    have pc : t.pc = s.pc := (congrArg State.pc frame :)
    refine ⟨t, _, _, ht, fetch_inside (by rw [pc]; exact hpc), ?_⟩
    rw [pc]
    exact ⟨fun r hr h => h ▸ stored r hr, fun r hr h => h ▸ stored r hr, others _, others _⟩
  case digits =>
    obtain ⟨digit, others⟩ := read_writeDigits s.memory s.I.toNat (s.reg x)
    refine ⟨_, _, _, exec_ldB_inside inside, fetch_inside hpc, ?_⟩
    exact ⟨fun k hk h => h ▸ digit k hk, fun k hk h => h ▸ digit k hk, others _, others _⟩

/-! ### Accesses of which a byte has no address -/

/-- Settles O42: both stores leave what `storeHalfDone` leaves, and the latch. -/
theorem storesBeyondMemoryLatch : Obligations.StoresBeyondMemoryLatch := by
  intro x s
  refine ⟨fun beyond => ?digits, fun beyond => ?regs⟩
  case digits =>
    refine ⟨_, exec_ldB_beyond beyond, rfl, fun a => ?_, ((Raises.ldB x beyond).store_precise (.inl rfl)).2⟩
    obtain old | ⟨lo, -, hi, new⟩ := read_storeHalfDone s.I.toNat (decimalDigits (s.reg x)) s a
    · exact .inl old
    · exact .inr ⟨lo, by omega, new⟩
  case regs =>
    refine ⟨_, exec_ldMemVx_beyond beyond, rfl, fun a => ?_, ((Raises.ldMemVx x beyond).store_precise (.inr rfl)).2⟩
    obtain old | ⟨lo, within, hi, new⟩ := read_storeHalfDone s.I.toNat (regsThrough x s) s a
    · exact .inl old
    · rw [length_regsThrough] at within
      have hr : a - s.I.toNat < 16 := by omega
      have le : (⟨a - s.I.toNat, hr⟩ : Reg) ≤ x := Fin.le_def.mpr (by simp only; omega)
      exact .inr ⟨by omega, ⟨_, hr⟩, le, by simp only; omega, new.trans (getD_regsThrough s le)⟩

theorem loadCandidate_inside {a k : Nat} {s : State} (inside : a + k ≤ 4095) :
    loadCandidate a s k = s.memory.read (a + k) := by
  rw [loadCandidate, memRead_eq, if_pos (by omega)]

/-- Settles O43: the load leaves what `loadHalfDone` leaves, and the latch. -/
theorem bulkLoadBeyondMemoryLatches : Obligations.BulkLoadBeyondMemoryLatches := by
  intro x s beyond
  obtain ⟨above, frame⟩ := (Raises.ldVxMem x beyond).load_precise
  refine ⟨_, exec_ldVxMem_beyond beyond, rfl, fun r _ inside => ?_, above, frame⟩
  have reg := reg_loadHalfDone s.I.toNat x s r
  rw [loadCandidate_inside inside] at reg
  split at reg
  · exact .inr reg
  · exact .inl reg

end Sys2Proof.Machine

/-! ## Proofs about DRW (spec/44_display.md) -/

namespace Sys2Proof.Machine

theorem exec_drw (x y : Reg) (n : Nibble) (s : State) : exec (.drw x y n) s = execDrw x y n s := rfl

/-! ### A draw of rows that can all be read -/

/-- The rows lit by the bytes from `I` on are the sprite's. -/
theorem rowsLight_eq_spriteLights (x y : Reg) (n : Nibble) (s : State) (cx : Fin 64) (cy : Fin 32) :
    rowsLight (fun k => s.memory.read (s.I.toNat + k)) (startColumn x s) (startRow y s) 0 n.toNat cx cy =
      s.spriteLights x y n cx cy := rfl

theorem spriteByte_inside {s : State} {k : Nat} (inside : s.I.toNat + k < 4096) :
    spriteByte s k = .ok (s.memory.read (s.I.toNat + k)) :=
  (memRead_eq s (s.I.toNat + k)).trans (if_pos inside)

/-- A draw of N rows, of which those on screen have an address: the cells, and when a lit cell was met. -/
theorem drawRows_inside {x y : Reg} {n : Nibble} {s : State}
    (inside : n = 0 ∨ s.I.toNat + s.rowsOnScreen y n ≤ 4096) :
    ∃ d hit, drawRows (spriteByte s) (startColumn x s) (startRow y s) n.toNat 0 s.display false = .ok (d, hit) ∧
      (∀ cx cy, (d.get cy).getLsbD cx.val = (s.cell cx cy ^^ s.spriteLights x y n cx cy)) ∧
      (hit = true ↔ ∃ cx cy, s.spriteLights x y n cx cy = true ∧ s.cell cx cy = true) := by
  obtain ⟨d, hit, drawn, cells, hits⟩ := drawRows_readable (spriteByte s) (fun k => s.memory.read (s.I.toNat + k))
    (startColumn x s) (startRow y s) n.toNat 0 s.display false fun k _ hk onScreen => by
      refine spriteByte_inside ?_
      obtain rfl | inside := inside
      · exact absurd hk (by simp)
      · rw [State.rowsOnScreen] at inside
        rw [startRow_eq] at onScreen
        omega
  exact ⟨d, hit, drawn, cells, by simpa [rowsLight_eq_spriteLights, State.cell] using hits⟩

/-- A draw whose rows could be drawn answers their display and their collision. -/
theorem exec_drw_drawn {x y : Reg} {n : Nibble} {s : State} {d : Display} {hit : Bool}
    (drawn : drawRows (spriteByte s) (startColumn x s) (startRow y s) n.toNat 0 s.display false = .ok (d, hit)) :
    exec (.drw x y n) s = .next
      ({ s with display := d, redrawPending := s.redrawPending || decide (1 ≤ n.toNat) }.setReg VF
        (flagByte hit)) := by
  rw [exec_drw, execDrw, drawn]

theorem flagByte_eq_one {flag : Bool} : flagByte flag = 1 ↔ flag = true := by cases flag <;> decide

theorem flagByte_zero_or_one (flag : Bool) : flagByte flag = 0 ∨ flagByte flag = 1 := by cases flag <;> decide

/-- Settles O28: the rows are drawn cell by cell, and the flag is the collision of the rows. -/
theorem drawXorsTheSpriteCellByCell : Obligations.DrawXorsTheSpriteCellByCell := by
  intro x y n s inside
  obtain ⟨d, hit, drawn, cells, hits⟩ := drawRows_inside (x := x) inside
  have rows : 1 ≤ n.toNat ↔ n ≠ 0 := by bv_omega
  refine ⟨_, exec_drw_drawn drawn, cells, ?_, ?_, fun r hr => State.reg_setReg_other _ _ hr, ?_, rfl⟩
  · rw [State.reg_setReg_self, flagByte_eq_one, hits]
  · rw [State.reg_setReg_self]; exact flagByte_zero_or_one hit
  · rw [State.setReg_redrawPending, decide_eq_decide.mpr rows]

/-- Settles O29: the second draw lights the same cells, so that each is XORed twice with one bit. -/
theorem drawingTwiceRestoresTheDisplay : Obligations.DrawingTwiceRestoresTheDisplay := by
  intro x y n s hx hy inside
  obtain ⟨t, ht, cells, hits, flag, regs, -, frame⟩ := drawXorsTheSpriteCellByCell x y n s inside
  have memory : t.memory = s.memory := (congrArg State.memory frame :)
  have index : t.I = s.I := (congrArg State.I frame :)
  have lights : t.spriteLights x y n = s.spriteLights x y n := by
    funext cx cy
    simp only [State.spriteLights, regs x hx, regs y hy, memory, index]
  have inside' : n = 0 ∨ t.I.toNat + t.rowsOnScreen y n ≤ 4096 := by
    simpa only [State.rowsOnScreen, regs y hy, index] using inside
  obtain ⟨u, hu, cells', hits', -⟩ := drawXorsTheSpriteCellByCell x y n t inside'
  rw [lights] at cells' hits'
  refine ⟨t, u, ht, hu, fun cx cy => ?restored, fun blank => ⟨?_, hits'.trans ?_⟩⟩
  case restored => rw [cells', cells, Bool.xor_assoc, Bool.xor_self, Bool.xor_false]
  · refine flag.resolve_right fun one => ?_
    obtain ⟨cx, cy, lit, met⟩ := hits.mp one
    simp [blank cx cy lit] at met
  · refine exists_congr fun cx => exists_congr fun cy => and_iff_left_of_imp fun lit => ?_
    rw [cells, lit, blank cx cy lit, Bool.false_xor]

/-! ### A draw of which a row has no address -/

/-- What a half-done draw draws of row k: some bits of its byte, or any bits where it has none. -/
def halfDrawnByte (s : State) (k : Nat) : Byte :=
  if s.I.toNat + k < 4096 then s.memory.read (s.I.toNat + k) &&& Config.freeByte s.freeCount k
  else Config.freeByte s.freeCount k

theorem spriteByteHalfDone_eq (s : State) (k : Nat) : spriteByteHalfDone s k = .ok (halfDrawnByte s k) := by
  have byte : spriteByte s k = if s.I.toNat + k < 4096 then .ok (s.memory.read (s.I.toNat + k))
      else .error (.dataAddressOutOfRange (s.I.toNat + k)) := memRead_eq s (s.I.toNat + k)
  rw [spriteByteHalfDone, halfDrawnByte, byte]
  by_cases inside : s.I.toNat + k < 4096
  · simp only [if_pos inside]
  · simp only [if_neg inside]

/-- A half-done draw: its display, cell by cell. -/
theorem drawHalfDone_cells (x y : Reg) (n : Nibble) (s : State) :
    ∃ d, drawHalfDone x y n s = ({ s with display := d }.setReg VF (flagHalfDone s)).tickFree ∧
      ∀ cx cy, (d.get cy).getLsbD cx.val =
        (s.cell cx cy ^^ rowsLight (halfDrawnByte s) (startColumn x s) (startRow y s) 0 n.toNat cx cy) := by
  obtain ⟨d, hit, drawn, cells, -⟩ := drawRows_readable (spriteByteHalfDone s) (halfDrawnByte s) (startColumn x s)
    (startRow y s) n.toNat 0 s.display false fun k _ _ _ => spriteByteHalfDone_eq s k
  exact ⟨d, by simp only [drawHalfDone, drawn], cells⟩

theorem flagHalfDone_cases (s : State) : flagHalfDone s = s.reg VF ∨ flagHalfDone s = 0 ∨ flagHalfDone s = 1 := by
  unfold flagHalfDone
  split
  · exact .inl rfl
  · exact .inr (flagByte_zero_or_one _)

/-- A half-done draw lights no cell outside the sprite, nor one of a readable row where the sprite has a 0 bit. -/
theorem halfDrawn_lights {x y : Reg} {n : Nibble} {s : State} {cx : Fin 64} {cy : Fin 32}
    (lit : rowsLight (halfDrawnByte s) (startColumn x s) (startRow y s) 0 n.toNat cx cy = true) :
    ((s.reg x).toNat % 64 ≤ cx.val ∧ cx.val < (s.reg x).toNat % 64 + 8) ∧
      ((s.reg y).toNat % 32 ≤ cy.val ∧ cy.val < (s.reg y).toNat % 32 + n.toNat) ∧
      (s.I.toNat + (cy.val - (s.reg y).toNat % 32) < 4096 → s.spriteLights x y n cx cy = true) := by
  rw [rowsLight, Bool.and_eq_true, Bool.and_eq_true] at lit
  obtain ⟨⟨column, row⟩, bit⟩ := lit
  refine ⟨of_decide_eq_true column, of_decide_eq_true row, fun readable => ?_⟩
  rw [halfDrawnByte, startRow_eq, if_pos readable, BitVec.getLsbD_and, Bool.and_eq_true] at bit
  rw [← rowsLight_eq_spriteLights, rowsLight, Bool.and_eq_true, Bool.and_eq_true]
  exact ⟨⟨column, row⟩, bit.1⟩

theorem exec_drw_beyond {x y : Reg} {n : Nibble} {s : State} (rows : n ≠ 0)
    (beyond : 4096 < s.I.toNat + s.rowsOnScreen y n) :
    exec (.drw x y n) s =
      .next { drawHalfDone x y n s with halted := some (.dataAddressOutOfRange (max s.I.toNat 4096)) } := by
  rw [exec_drw, execDrw]
  obtain ⟨inside, -⟩ | ⟨-, h⟩ := drawRows_sprite x y n s
  · exact absurd (inside.resolve_left rows) (by omega)
  · rw [h]; rfl

/-- Settles O30: the draw leaves what `drawHalfDone` leaves, and the latch. -/
theorem drawBeyondMemoryLatches : Obligations.DrawBeyondMemoryLatches := by
  intro x y n s rows beyond
  obtain ⟨d, half, cells⟩ := drawHalfDone_cells x y n s
  have faulted := exec_drw_beyond (x := x) rows beyond
  rw [half] at faulted
  refine ⟨_, faulted, rfl, ?flag, fun r hr => State.reg_setReg_other _ _ hr, fun cx cy outside => ?cell, rfl⟩
  case flag => exact (State.reg_setReg_self _ VF (flagHalfDone s)).symm ▸ flagHalfDone_cases s
  case cell =>
    refine (cells cx cy).trans ?_
    cases lit : rowsLight (halfDrawnByte s) (startColumn x s) (startRow y s) 0 n.toNat cx cy with
    | false => exact Bool.xor_false _
    | true =>
      obtain ⟨column, row, sprite⟩ := halfDrawn_lights lit
      obtain out | out | out | out | ⟨readable, dark⟩ := outside
      · omega
      · omega
      · omega
      · omega
      · simp [sprite readable] at dark

end Sys2Proof.Machine
